-- ==== Sys2Proof/Word.lean ====
section
/-! DEFINITION. The word types of the block and the size of its address space. -/

namespace Sys2Proof

/-- One byte of the data memory (20 R20). -/
abbrev Byte := BitVec 8

/-- A 16-bit PCM sample pattern (00 R8, R9). -/
abbrev Half := BitVec 16

/-- A 32-bit pattern: a command word, a byte address, a frame count or a binary32 sample (00 R7, R9). -/
abbrev Word := BitVec 32

/-- The data memory has `2^32` bytes, at byte addresses below this number (20 R20). -/
def memSize : Nat := 4294967296

end Sys2Proof
end

