-- ==== Sys2Proof/Config.lean ====
section
/-! DEFINITION. The configuration record `CFG` of 00_scope.md rule R7, its named profiles and its defaults, and the
model's one free value. -/

namespace Sys2Proof

/-- `CFG.VARIANT`: which of the two converters of 00 R3 an instance is. -/
inductive Variant where
  | reference
  | vectorized
  deriving DecidableEq, Repr

/-- `CFG.TIE`: the direction of rounding at an exact half-integer scaled value (40 R58, D17). -/
inductive Tie where
  | away
  | even
  deriving DecidableEq, Repr

/-- `CFG.DN_SCOPE`: whether each context has its own `DNCTL` or all share one (10 R11). -/
inductive DnScope where
  | perContext
  | shared
  deriving DecidableEq, Repr

/-- The configuration record `CFG` (00 R7). It is fixed for the life of an instance (D34). -/
structure Cfg where
  /-- `CFG.VARIANT` -/
  variant     : Variant
  /-- `CFG.TIE`; a reference instance rounds ties away whatever stands here (`Cfg.effTie`). -/
  tie         : Tie
  /-- `CFG.C_PINF`, the int16 that `ILV` gives for +infinity (40 R55). -/
  cPinf       : Half
  /-- `CFG.C_NINF`, the int16 that `ILV` gives for -infinity (40 R55). -/
  cNinf       : Half
  /-- `CFG.C_NAN`, the int16 that `ILV` gives for any NaN (40 R54). -/
  cNan        : Half
  /-- `CFG.DN_SUPPORTED` (42 R73). -/
  dnSupported : Bool
  /-- `CFG.DN_SCOPE` (10 R11). -/
  dnScope     : DnScope
  /-- `CFG.NCTX`, the number of contexts (60 R97). -/
  nctx        : Nat
  deriving DecidableEq, Repr

/-- The three named profiles of 00 R7 (D18). -/
inductive Profile where
  | sat
  | x86Like
  | arm64Like
  deriving DecidableEq, Repr

/-- `CFG` with the three constants of a profile (the profile table of 00 R7). -/
def Cfg.withProfile (cfg : Cfg) : Profile → Cfg
  | .sat       => { cfg with cPinf := 0x7FFF#16, cNinf := 0x8000#16, cNan := 0#16 }
  | .x86Like   => { cfg with cPinf := 0x8000#16, cNinf := 0x8000#16, cNan := 0x7FFF#16 }
  | .arm64Like => { cfg with cPinf := 0#16, cNinf := 0#16, cNan := 0#16 }

/-- The defaults of 00 R7 (column "default of this spec"), profile `SAT`. -/
def Cfg.specDefault : Cfg :=
  Cfg.withProfile
    { variant := .reference, tie := .away, cPinf := 0#16, cNinf := 0#16, cNan := 0#16,
      dnSupported := true, dnScope := .perContext, nctx := 1 }
    .sat

/-- What 00 R7 requires of the fields: a reference instance has `TIE = AWAY`, and there is a context. -/
def Cfg.wf (cfg : Cfg) : Bool :=
  (cfg.variant != .reference || cfg.tie == .away) && decide (1 ≤ cfg.nctx)

/-- FREE VALUE (log entry 5). The `n`-th byte that the spec leaves unspecified: 60 R87 says of a Race that "the
contents of the buffers involved are unspecified". Nothing can evaluate it. -/
opaque Config.freeByte : Nat → Byte

end Sys2Proof
end

