-- ==== Sys2Proof/Machine/State.lean ====
section
/-! DEFINITION. The state of the block as plain data, the reasons it can stop, and the state after reset
(10_state.md, 60_exceptions.md, 70_reset_and_hazards.md). -/

namespace Sys2Proof.Machine

/-- The data memory (20 R20) in canonical form: cells at strictly rising addresses, none of them equal to what an
unlisted address reads as. -/
abbrev Memory := List Host.Cell

/-- What an address that no cell lists reads as. DESIGN CHOICE (log entry 2, unsafe): the spec gives the memory no
contents at reset, "its contents are whatever the host left" (10 R18). -/
abbrev unlistedByte : Byte := 0#8

/-- A byte span `(base, length)` (20 R22). -/
structure Span where
  base : Nat
  len  : Nat
  deriving DecidableEq, Repr

/-- The reason that stands beside the `FAULTED` mark (60 R86, R88). -/
inductive FaultReason where
  /-- `ContractBreach(ZeroCount)`, code 1: `C = 0` or `F = 0`. -/
  | zeroCount
  /-- `ContractBreach(NullBuffer)`, code 2: a base address is 0. -/
  | nullBuffer
  /-- `ContractBreach(Misaligned)`, code 3: `PCM_BASE` odd or a plane base not a multiple of 4. -/
  | misaligned
  /-- `ContractBreach(Capacity)`, code 4: some element of a buffer is not owned. -/
  | capacity
  /-- `ContractBreach(Overlap)`, code 5: an output meets another buffer of the command. -/
  | overlap
  /-- `ContractBreach(Race)`, code 6: another agent touched a buffer of an executing command. -/
  | race
  /-- `IllegalCommand(ReservedEncoding)`, code 7: word 0 matches no row of the opcode map. -/
  | reservedEncoding
  deriving DecidableEq, Repr

/-- One context (60 R97). -/
structure Context where
  /-- The command port: the words of the present command collected so far; idle when empty (30 R35, 10 R18). -/
  words     : List Word
  /-- MODEL'S OWN (log entry 3): how many commands have completed with status `OK`, the index of 10 R13. -/
  completed : Nat
  deriving DecidableEq, Repr

/-- What the host, the only other agent, can do (70 R104, R98; 30 R35). -/
inductive HostAction where
  /-- Applies the one reset of the block (70 R98). That it is the host who applies it is the model's choice (log entry
  24). -/
  | reset
  /-- Writes a word to the command port of a context (30 R35). -/
  | writePort (ctx : Nat) (w : Word)
  /-- Lets the command in execution on a context run to completion now: which context moves next (60 R97). -/
  | advance (ctx : Nat)
  /-- Reads a byte of memory. -/
  | load (a : Word)
  /-- Writes a byte of memory. -/
  | store (a : Word) (b : Byte)
  /-- Creates a buffer: puts a span in `ALLOC`. -/
  | create (sp : Span)
  /-- Destroys a buffer: removes a span from `ALLOC`. -/
  | destroy (sp : Span)
  deriving DecidableEq, Repr

/-- The state of the block and of the memory it works on, with the run's parameters `CFG` and `ALLOC` (log entry 1)
and the host's pending actions (log entry 4). -/
structure State where
  /-- `CFG` (00 R7); no step changes it. -/
  cfg      : Cfg
  /-- `ALLOC` (20 R22), as a list of spans. -/
  alloc    : List Span
  /-- The data memory (20 R20). -/
  mem      : Memory
  /-- The `DNCTL` registers, 32 bits each: one per context, or one in all (10 R10, R11). -/
  dnctl    : List Word
  /-- The `FAULTED` mark with its reason (10 R17). -/
  faulted  : Option FaultReason
  /-- The contexts, number 0 first (60 R97). -/
  contexts : List Context
  /-- MODEL'S OWN (log entry 3): the context whose command is being executed. -/
  cur      : Nat
  /-- MODEL'S OWN (log entry 4): the host's actions still to come, in the order in which they happen. -/
  inbox    : List HostAction
  /-- MODEL'S OWN (log entry 5): the number of the next free value. -/
  fresh    : Nat
  deriving DecidableEq, Repr

/-- The reasons for which a step stops the model. -/
inductive Fault where
  /-- Raised by every meaning and by every step but a reset, in a state whose `FAULTED` mark is set: "no later
  command of any context has a defined effect" (60 R87). Safe. -/
  | halted (r : FaultReason)
  /-- Raised by a host action that names a context that is not there (`ctx >= CFG.NCTX`, 60 R97). Safe. -/
  | noSuchContext (ctx : Nat)
  deriving DecidableEq, Repr

/-- The reasons for which a term has no meaning. -/
inductive Refusal where
  /-- An instruction without a meaning; raised by no arm of `exec`. Safe. -/
  | notModelled (mnemonic : String)
  /-- Raised by `execIlv` and `execDilv` on a term that is not well formed, its list of planes not `CH` long: it
  "spells no command" (30 R44), and no words decode to it (60 R86, row `ChannelMismatch`). Safe. -/
  | channelMismatch
  deriving DecidableEq, Repr

/-- What a step or a meaning answers. -/
abbrev Result := Host.Outcome State Fault Refusal

/-- How many `DNCTL` registers there are (10 R11). -/
def dnctlCount (cfg : Cfg) : Nat :=
  match cfg.dnScope with
  | .perContext => cfg.nctx
  | .shared     => 1

/-- A context with an idle port and no completed command (10 R18). -/
def Context.idle : Context := { words := [], completed := 0 }

/-- The state right after reset of an instance with configuration `cfg`, over the memory and the buffers that the
host has prepared (10 R18, 70 R99). -/
def State.resetWith (cfg : Cfg) (alloc : List Span) (mem : Memory) : State :=
  { cfg := cfg, alloc := alloc, mem := mem,
    dnctl := List.replicate (dnctlCount cfg) 0#32, faulted := none,
    contexts := List.replicate cfg.nctx Context.idle,
    cur := 0, inbox := [], fresh := 0 }

/-- The machine right after reset with the spec's default configuration (00 R7), nothing listed in memory and no
buffer created yet. -/
def State.reset : State := State.resetWith Cfg.specDefault [] []

end Sys2Proof.Machine
end

