-- ==== Sys2Proof/Machine/Ops.lean ====
section
/-! DEFINITION. The named operations: memory access (20_memory.md), named updates of the state, completing a command
(30 R35) and raising a fault (60 R87, R89), and the reset of the block (70 R98). -/

namespace Sys2Proof.Machine

/-! ### Memory -/

/-- The byte at an address. -/
def Memory.read : Memory → Nat → Byte
  | [], _ => unlistedByte
  | c :: m, a => if c.1 = a then c.2 else Memory.read m a

/-- Puts a cell in front of the first cell at a higher address. -/
def Memory.insert (a : Nat) (b : Byte) : Memory → Memory
  | [] => [(a, b)]
  | c :: m => if a < c.1 then (a, b) :: c :: m else c :: Memory.insert a b m

/-- Sets the byte at an address and changes no other; a byte equal to `unlistedByte` is not listed. -/
def Memory.write (m : Memory) (a : Nat) (b : Byte) : Memory :=
  if b = unlistedByte then m.filter (fun c => c.1 != a)
  else Memory.insert a b (m.filter (fun c => c.1 != a))

/-- The canonical form: addresses strictly rising and below `2^32`, no cell that an unlisted address would equal. -/
def Memory.wf : Memory → Bool
  | [] => true
  | [c] => decide (c.1 < memSize) && c.2 != unlistedByte
  | c :: d :: m => decide (c.1 < d.1) && c.2 != unlistedByte && Memory.wf (d :: m)

/-- `MemRead(addr, n)`: the `n` bytes from `addr`, the lowest address least significant (20 R24). -/
def memRead (m : Memory) (addr : Nat) : Nat → Nat
  | 0 => 0
  | n + 1 => (m.read addr).toNat + 256 * memRead m (addr + 1) n

/-- `MemWrite(addr, n, v)`: byte `i` of `v` goes to `addr + i` (20 R25). -/
def memWrite (m : Memory) (addr : Nat) : Nat → Nat → Memory
  | 0, _ => m
  | n + 1, v => memWrite (m.write addr (BitVec.ofNat 8 v)) (addr + 1) n (v / 256)

/-! ### Spans (20_memory.md rules R22 and R29) -/

/-- The spans that `ALLOC` may hold: `base >= 1` and `base + length <= 2^32` (20 R22). -/
def Span.ok (sp : Span) : Bool := decide (1 ≤ sp.base) && decide (sp.base + sp.len ≤ memSize)

/-- The byte range of `inner` lies wholly inside `outer`. -/
def Span.within (inner outer : Span) : Bool :=
  decide (outer.base ≤ inner.base) && decide (inner.base + inner.len ≤ outer.base + outer.len)

/-- An address lies in the byte range. -/
def Span.has (sp : Span) (a : Nat) : Bool := decide (sp.base ≤ a) && decide (a < sp.base + sp.len)

/-- Two byte ranges intersect: some address lies in both. -/
def Span.meets (p q : Span) : Bool :=
  decide (max p.base q.base < min (p.base + p.len) (q.base + q.len))

/-- A byte range is owned when it lies wholly inside one span of `ALLOC` (20 R22). -/
def owned (alloc : List Span) (sp : Span) : Bool := alloc.any fun o => o.ok && sp.within o

/-- Each of the `n` elements of `w` bytes from address `a` on is owned: "every access of a command must be owned"
(20 R22, 60 R86, D10). The elements of one buffer may lie in different spans (log entry 9). -/
def ownedElements (alloc : List Span) (w : Nat) : Nat → Nat → Bool
  | 0, _ => true
  | n + 1, a => owned alloc { base := a, len := w } && ownedElements alloc w n (a + w)

/-- No two of the ranges intersect. -/
def pairwiseApart : List Span → Bool
  | [] => true
  | sp :: rest => rest.all (fun q => !sp.meets q) && pairwiseApart rest

/-- Sets the bytes at the addresses to fresh free values, numbered from `n` on (60 R87, code 6). -/
def scramble : List Nat → Nat → Memory → Memory
  | [], _, m => m
  | a :: as, n, m => scramble as (n + 1) (m.write a (Config.freeByte n))

/-- The addresses of the bytes of some spans. -/
def Span.addresses (sps : List Span) : List Nat := sps.flatMap fun sp => List.range' sp.base sp.len

/-! ### Named updates of the state -/

def State.setMem (s : State) (m : Memory) : State := { s with mem := m }

def State.setAlloc (s : State) (al : List Span) : State := { s with alloc := al }

def State.setCur (s : State) (t : Nat) : State := { s with cur := t }

def State.setInbox (s : State) (acts : List HostAction) : State := { s with inbox := acts }

/-- The words that the command port of context `t` holds; none where there is no such context. -/
def State.portWords (s : State) (t : Nat) : List Word :=
  match s.contexts[t]? with
  | some c => c.words
  | none   => []

/-- Sets the words that the command port of context `t` holds. -/
def State.setPort (s : State) (t : Nat) (ws : List Word) : State :=
  { s with contexts := s.contexts.modify t fun c => { c with words := ws } }

/-- How many commands context `t` has completed. -/
def State.completedOf (s : State) (t : Nat) : Nat :=
  match s.contexts[t]? with
  | some c => c.completed
  | none   => 0

/-- The command of the current context completes with status `OK`: its port accepts the next command (30 R35), and
the model's index advances by exactly one command (10 R13). -/
def State.complete (s : State) : State :=
  { s with contexts := s.contexts.modify s.cur fun c => { words := [], completed := c.completed + 1 } }

/-- The `FAULTED` mark is set with a reason (10 R17). -/
def State.setFaulted (s : State) (r : FaultReason) : State := { s with faulted := some r }

/-- Raising a fault (60 R87, R89): the mark is set with the reason; memory and `DNCTL` are exactly as before; the
command does not complete. There is no handler, saved state or transfer of control (60 R93). -/
def raise (r : FaultReason) (s : State) : Result := .next (s.setFaulted r)

/-- Raising `ContractBreach(Race)`: as `raise`, and "the contents of the buffers involved are unspecified" (60 R87):
every byte of them takes a free value (log entry 5). -/
def raiseRace (buffers : List Span) (s : State) : Result :=
  raise .race
    { s with mem := scramble (Span.addresses buffers) s.fresh s.mem,
             fresh := s.fresh + (Span.addresses buffers).length }

/-- The reset of the whole block (70 R98, R99): every piece of the block's state takes its reset value; memory, the
host's buffers and the host's pending actions are not touched. -/
def State.resetBlock (s : State) : State :=
  { State.resetWith s.cfg s.alloc s.mem with inbox := s.inbox, fresh := s.fresh }

end Sys2Proof.Machine
end

