-- ==== Sys2Proof/Machine/Float.lean ====
section
/-! DEFINITION. The two sample formats and the helper functions over them (00_scope.md rules R8 and R9). -/

namespace Sys2Proof.Machine

/-! ### 16-bit signed integers (00 R8) -/

/-- `sint16(h) = h[14:0] - 32768 * h[15]`. -/
def sint16 (h : Half) : Int := ((h.extractLsb' 0 15).toNat : Int) - 32768 * ((h.getLsbD 15).toNat : Int)

/-- `enc16(n) = n mod 65536`. -/
def enc16 (n : Int) : Half := BitVec.ofInt 16 n

/-! ### binary32 (00 R9) -/

/-- `sign(w) = w[31]`: `true` is negative. -/
def sign (w : Word) : Bool := w.getLsbD 31

/-- `bexp(w) = w[30:23]` -/
def bexp (w : Word) : Nat := (w.extractLsb' 23 8).toNat

/-- `frac(w) = w[22:0]` -/
def frac (w : Word) : Nat := (w.extractLsb' 0 23).toNat

def isNaN (w : Word) : Bool := bexp w == 255 && frac w != 0

def isInf (w : Word) : Bool := bexp w == 255 && frac w == 0

def isZero (w : Word) : Bool := bexp w == 0 && frac w == 0

def isSubnormal (w : Word) : Bool := bexp w == 0 && frac w != 0

def isNormal (w : Word) : Bool := decide (1 ≤ bexp w) && decide (bexp w ≤ 254)

def isFinite (w : Word) : Bool := bexp w != 255

/-- `(-1)^sign(w)` -/
def signFactor (w : Word) : Int := if sign w then -1 else 1

/-- `val(w)`, an exact rational; the rules use it only where `isFinite w` (00 R9). -/
def val (w : Word) : Rat :=
  if bexp w = 0 then mkRat (signFactor w * frac w) (2 ^ 149)
  else mkRat (signFactor w * ((2 ^ 23 + frac w) * 2 ^ bexp w : Nat)) (2 ^ 150)

/-! ### Rounding of exact rationals (00 R9) -/

/-- `trunc(q)`: toward zero. -/
def trunc (q : Rat) : Int := if 0 ≤ q then ⌊q⌋ else ⌈q⌉

/-- `rhaz(q)`: to nearest, ties away from zero, by the source's recipe evaluated exactly (40 R61). -/
def rhaz (q : Rat) : Int := if 0 ≤ q then trunc (q + 1 / 2) else trunc (q - 1 / 2)

/-- `isTie(q)`: halfway between two integers. -/
def isTie (q : Rat) : Bool := decide (q - ⌊q⌋ = 1 / 2)

/-- `rne(q)`: the nearest integer; at a tie the even one of the two. -/
def rne (q : Rat) : Int :=
  if q - ⌊q⌋ < 1 / 2 then ⌊q⌋
  else if 1 / 2 < q - ⌊q⌋ then ⌊q⌋ + 1
  else if ⌊q⌋ % 2 = 0 then ⌊q⌋
  else ⌊q⌋ + 1

end Sys2Proof.Machine
end

