-- ==== Sys2Proof/Syntax.lean ====
section
/-! DEFINITION. The three commands of the block, the syntax of 30_encoding.md rule R46. -/

namespace Sys2Proof

/-- The operands of a format `T` command (30 R36): channel count, frame count, the base of the interleaved PCM
buffer and the bases of the planes, in channel order. -/
structure Transfer where
  /-- `CH` -/
  ch     : BitVec 16
  /-- `FRAMES` -/
  frames : Word
  /-- `PCM_BASE` -/
  pcm    : Word
  /-- `PLANE_BASE[0]`, `PLANE_BASE[1]`, ... -/
  planes : List Word
  deriving DecidableEq, Repr

/-- One constructor per row of the opcode table (30 R38). -/
inductive Instr where
  /-- `ILV`, the source's `interleave` (40 R52). -/
  | ilv (x : Transfer)
  /-- `DILV`, the source's `deinterleave` (41 R66). -/
  | dilv (x : Transfer)
  /-- `DNEN`, the source's `enable_denormal_flush_to_zero` (42 R72). -/
  | dnen
  deriving DecidableEq, Repr

end Sys2Proof
end

