-- ==== Sys2Proof/WellFormed.lean ====
section
/-! DEFINITION. Which terms of the syntax spell a command. -/

namespace Sys2Proof

/-- The list of planes has exactly `CH` entries (30 R36, R44: "a listing whose list length differs from `ch=` spells
no command"). -/
def Transfer.wf (x : Transfer) : Bool := x.planes.length == x.ch.toNat

/-- The one check of the syntax: a format `T` command carries exactly `CH` plane addresses. Every field width is in
its type. -/
def Instr.wf : Instr → Bool
  | .ilv x  => x.wf
  | .dilv x => x.wf
  | .dnen   => true

end Sys2Proof
end

