-- ==== Sys2Proof/Machine/Operands.lean ====
section
/-! DEFINITION. The operands of a format `T` command: counts, element addresses, buffers, and the precondition
checks of 40 R49 and 41 R64. All arithmetic is in unbounded naturals and never wraps (20 R23, 43 R110). -/

namespace Sys2Proof.Machine

/-- `C = CH` (30 R40). -/
def chCount (x : Transfer) : Nat := x.ch.toNat

/-- `F = FRAMES` (30 R40). -/
def frameCount (x : Transfer) : Nat := x.frames.toNat

/-- `pcm_addr(f, c) = PCM_BASE + 2 * (f * C + c)` (20 R23). -/
def pcmAddr (x : Transfer) (f c : Nat) : Nat := x.pcm.toNat + 2 * (f * chCount x + c)

/-- `plane_addr(c, f) = PLANE_BASE[c] + 4 * f` (20 R23). -/
def planeAddr (x : Transfer) (c f : Nat) : Nat := (x.planes.getD c 0#32).toNat + 4 * f

/-- The byte range `[PCM_BASE, PCM_BASE + 2*C*F)`. -/
def pcmSpan (x : Transfer) : Span := { base := x.pcm.toNat, len := 2 * (chCount x * frameCount x) }

/-- The byte range `[b, b + 4*F)` of a plane with base `b`. -/
def planeSpan (x : Transfer) (b : Word) : Span := { base := b.toNat, len := 4 * frameCount x }

/-- The byte ranges of the planes, in channel order. -/
def planeSpans (x : Transfer) : List Span := x.planes.map (planeSpan x)

/-- The pairs `(f, c)` of a command, one per element. The order is the model's and unobservable (20 R30). -/
def elements (x : Transfer) : List (Nat × Nat) :=
  (List.range (frameCount x)).flatMap fun f => (List.range (chCount x)).map fun c => (f, c)

/-- The checks that both converters make before any access, in the order of 40 R49 and 41 R64; the first that fails
is the reason (60 R90). -/
def commonBreach (x : Transfer) (alloc : List Span) : Option FaultReason :=
  if chCount x = 0 ∨ frameCount x = 0 then some .zeroCount
  else if x.pcm.toNat = 0 ∨ x.planes.any (fun b => b.toNat == 0) then some .nullBuffer
  else if x.pcm.toNat % 2 ≠ 0 ∨ x.planes.any (fun b => b.toNat % 4 != 0) then some .misaligned
  else if ownedElements alloc 2 (chCount x * frameCount x) x.pcm.toNat = false
      ∨ x.planes.any (fun b => !ownedElements alloc 4 (frameCount x) b.toNat) then some .capacity
  else none

/-- The checks of `ILV` (40 R49): the output may not meet an input; inputs may meet each other (20 R29). -/
def ilvBreach (x : Transfer) (alloc : List Span) : Option FaultReason :=
  match commonBreach x alloc with
  | some r => some r
  | none   => if (planeSpans x).any (pcmSpan x).meets then some .overlap else none

/-- The checks of `DILV` (41 R64): no output plane may meet the input or another output plane. -/
def dilvBreach (x : Transfer) (alloc : List Span) : Option FaultReason :=
  match commonBreach x alloc with
  | some r => some r
  | none   =>
    if (planeSpans x).any (pcmSpan x).meets ∨ pairwiseApart (planeSpans x) = false then some .overlap else none

/-- A format `T` command (40 R52, 41 R66): nothing while `FAULTED` is set; otherwise the checks, all before the first
access, then the new memory and completion with status `OK`. -/
def runTransfer (x : Transfer) (breach : Option FaultReason) (newMem : Memory) (s : State) : Result :=
  match s.faulted with
  | some r => .fault (.halted r)
  | none =>
    if x.wf then
      match breach with
      | some r => raise r s
      | none   => .next (s.setMem newMem).complete
    else .refused .channelMismatch

end Sys2Proof.Machine
end

