-- ==== Sys2Proof/Machine/Deinterleave.lean ====
section
/-! DEFINITION. `DILV`, the PCM-to-float converter (41_deinterleave.md). -/

namespace Sys2Proof.Machine

/-- The binary32 pattern with sign bit, biased exponent `112 + e` and fraction `m - 2^e` left-aligned in 23 bits
(the last line of 41 R65). -/
def packFloat (negative : Bool) (m e : Nat) : Word :=
  BitVec.ofNat 32 ((if negative then 2 ^ 31 else 0) + (112 + e) * 2 ^ 23 + (m - 2 ^ e) * 2 ^ (23 - e))

/-- The per-sample function `p2f(h)` (41 R65). -/
def p2f (h : Half) : Word :=
  if sint16 h = 0 then 0x00000000#32
  else packFloat (decide (sint16 h < 0)) (sint16 h).natAbs (Nat.log2 (sint16 h).natAbs)

/-- One element of the loop of 41 R66: `h <- MemRead(..., 2)`, then `MemWrite(..., 4, p2f(h))`. -/
def dilvElement (x : Transfer) (m : Memory) (e : Nat × Nat) : Memory :=
  memWrite m (planeAddr x e.2 e.1) 4 (p2f (BitVec.ofNat 16 (memRead m (pcmAddr x e.1 e.2) 2))).toNat

/-- The loop of 41 R66 over the elements in the order of a list. -/
def dilvLoop (x : Transfer) (order : List (Nat × Nat)) (m : Memory) : Memory :=
  order.foldl (dilvElement x) m

/-- `DILV` (41 R66), issued by the current context. -/
def execDilv (x : Transfer) (s : State) : Result :=
  runTransfer x (dilvBreach x s.alloc) (dilvLoop x (elements x) s.mem) s

end Sys2Proof.Machine
end

