-- ==== Sys2Proof/Machine/Flags.lean ====
section
/-! DEFINITION. The block has no condition codes and no floating-point status (10 R14): no command computes a flag.
Its only flags are the two fields of the denormal-mode control register `DNCTL` (10 R10, R11), read and written here
and nowhere else. -/

namespace Sys2Proof.Machine

/-- `DNCTL.FTZ`, bit 0 (10 R10). -/
def ftz (r : Word) : Bool := r.getLsbD 0

/-- `DNCTL.DAZ`, bit 1 (10 R10). -/
def daz (r : Word) : Bool := r.getLsbD 1

/-- Bits 31:2 are hardwired 0 (10 R10). -/
def dnctlHardwired (r : Word) : Word := r &&& 0x00000003#32

/-- The register that `DNCTL[t]` names: its own, or the one that all share (10 R11). -/
def dnctlIndex (cfg : Cfg) (t : Nat) : Nat :=
  match cfg.dnScope with
  | .perContext => t
  | .shared     => 0

/-- `DNCTL[t]`, its reserved bits reading 0. -/
def State.dnctlOf (s : State) (t : Nat) : Word :=
  dnctlHardwired (s.dnctl.getD (dnctlIndex s.cfg t) 0#32)

/-- `DNCTL[t] <- v`, the reserved bits staying 0. -/
def State.setDnctl (s : State) (t : Nat) (v : Word) : State :=
  { s with dnctl := s.dnctl.set (dnctlIndex s.cfg t) (dnctlHardwired v) }

/-- A register value with `FTZ` and `DAZ` both 1 (42 R72). -/
def withBothModes (r : Word) : Word := r ||| 0x00000003#32

end Sys2Proof.Machine
end

