-- ==== Sys2Proof/Machine/Denormal.lean ====
section
/-! DEFINITION. `DNEN`, the denormal-mode control operation (42_denormal_control.md). -/

namespace Sys2Proof.Machine

/-- The effect of `DNEN` on `DNCTL[t]`: both fields set when the mode is supported, nothing otherwise (42 R72, R73). -/
def enableDenormalMode (s : State) : State :=
  if s.cfg.dnSupported then s.setDnctl s.cur (withBothModes (s.dnctlOf s.cur)) else s

/-- `DNEN` (42 R72), issued by the current context; it completes with status `OK` in either case. -/
def execDnen (s : State) : Result :=
  match s.faulted with
  | some r => .fault (.halted r)
  | none   => .next (enableDenormalMode s).complete

end Sys2Proof.Machine
end

