-- ==== Sys2Proof/Machine/Interleave.lean ====
section
/-! DEFINITION. `ILV`, the float-to-PCM converter (40_interleave.md). -/

namespace Sys2Proof.Machine

/-- The tie policy of an instance: `VARIANT = REFERENCE` forces `AWAY` (00 R7, D17). -/
def effTie (cfg : Cfg) : Tie :=
  match cfg.variant with
  | .reference  => .away
  | .vectorized => cfg.tie

/-- The scaled value `s` of a finite sample: its value times 32768, exact (40 R53), a subnormal operand taken as zero
when `DAZ` is set (40 R59). `dn` is `DNCTL[t]` of the issuing context. -/
def scaled (dn : Word) (w : Word) : Rat :=
  (if isSubnormal w = true ∧ daz dn = true then 0 else val w) * 32768

/-- Clamp and round of a scaled value: the last four lines of 40 R51 (R56 to R58). -/
def clampRound (tie : Tie) (q : Rat) : Int :=
  if 32767 < q then 32767
  else if q < -32768 then -32768
  else if isTie q = true ∧ tie = .even then rne q
  else rhaz q

/-- The per-sample function `f2p(w, t)` (40 R51); `dn` is `DNCTL[t]` of the issuing context. -/
def f2p (cfg : Cfg) (dn : Word) (w : Word) : Int :=
  if isNaN w then sint16 cfg.cNan
  else if isInf w then (if sign w then sint16 cfg.cNinf else sint16 cfg.cPinf)
  else clampRound (effTie cfg) (scaled dn w)

/-- One element of the loop of 40 R52: `w <- MemRead(..., 4)`, then `MemWrite(..., 2, enc16(f2p(w, t)))`. -/
def ilvElement (cfg : Cfg) (dn : Word) (x : Transfer) (m : Memory) (e : Nat × Nat) : Memory :=
  memWrite m (pcmAddr x e.1 e.2) 2
    (enc16 (f2p cfg dn (BitVec.ofNat 32 (memRead m (planeAddr x e.2 e.1) 4)))).toNat

/-- The loop of 40 R52 over the elements in the order of a list. -/
def ilvLoop (cfg : Cfg) (dn : Word) (x : Transfer) (order : List (Nat × Nat)) (m : Memory) : Memory :=
  order.foldl (ilvElement cfg dn x) m

/-- `ILV` (40 R52), issued by the current context. -/
def execIlv (x : Transfer) (s : State) : Result :=
  runTransfer x (ilvBreach x s.alloc) (ilvLoop s.cfg (s.dnctlOf s.cur) x (elements x) s.mem) s

end Sys2Proof.Machine
end

