-- ==== Sys2Proof/Machine/Dispatch.lean ====
section
/-! DEFINITION. The dispatch of a command to its meaning. -/

namespace Sys2Proof.Machine

def exec (i : Instr) (s : State) : Host.Outcome State Fault Refusal :=
  match i with
  | .ilv x => Sys2Proof.Machine.execIlv x s
  | .dilv x => Sys2Proof.Machine.execDilv x s
  | .dnen => Sys2Proof.Machine.execDnen s

end Sys2Proof.Machine
end

