-- ==== Sys2Proof/Decode.lean ====
section
/-! DEFINITION. The command decoder and encoder (30_encoding.md): the opcode map as a table of match and mask, the
decoder of a stream of command words, the encoder, and the host's `decodeTableWord`. -/

namespace Sys2Proof

/-- The three operations of the opcode map (30 R38). -/
inductive Op where
  | ilv
  | dilv
  | dnen
  deriving DecidableEq, Repr

/-- One row of the opcode map: word 0 belongs to `op` when `word0 & mask = pattern` (30 R38). -/
structure OpRow where
  op      : Op
  mask    : Word
  pattern : Word
  deriving DecidableEq, Repr

/-- "Match and mask on word 0" (30 R38). -/
def opcodeMap : List OpRow :=
  [ { op := .ilv,  mask := 0xFFFF0000#32, pattern := 0x01000000#32 },
    { op := .dilv, mask := 0xFFFF0000#32, pattern := 0x02000000#32 },
    { op := .dnen, mask := 0xFFFFFFFF#32, pattern := 0x03000001#32 } ]

def OpRow.hits (w0 : Word) (r : OpRow) : Bool := w0 &&& r.mask == r.pattern

/-- The operation that word 0 selects; `none` where it matches no row (30 R41). -/
def opOf (w0 : Word) : Option Op := (opcodeMap.find? (OpRow.hits w0)).map OpRow.op

/-- `CH = word0[15:0]` (30 R36). -/
def chField (w0 : Word) : BitVec 16 := w0.extractLsb' 0 16

/-- The number of words of a command, decided by word 0 alone (30 R39). -/
def commandLength (w0 : Word) : Nat :=
  match opOf w0 with
  | some .ilv  => 3 + (chField w0).toNat
  | some .dilv => 3 + (chField w0).toNat
  | some .dnen => 1
  | none       => 1

/-- Why a list of words does not decode. -/
inductive DecodeError where
  /-- Word 0 matches no row of the opcode map: `IllegalCommand` (30 R41). -/
  | reservedEncoding
  /-- More words of this command are still to come (30 R35, R39). -/
  | incomplete
  deriving DecidableEq, Repr

/-- The operands of a format `T` command from its word 0 and the words after it (30 R36, R40), with the rest. -/
def decodeTransfer (w0 : Word) : List Word → Except DecodeError (Transfer × List Word)
  | frames :: pcm :: tail =>
    if tail.length < (chField w0).toNat then .error .incomplete
    else .ok ({ ch := chField w0, frames := frames, pcm := pcm, planes := tail.take (chField w0).toNat },
              tail.drop (chField w0).toNat)
  | _ => .error .incomplete

/-- The decoder of a stream of command words: the first command and the words after it (30 R39). An illegal word 0
is rejected by name on word 0 alone (60 R88). -/
def decode : List Word → Except DecodeError (Instr × List Word)
  | [] => .error .incomplete
  | w0 :: rest =>
    match opOf w0 with
    | none       => .error .reservedEncoding
    | some .dnen => .ok (.dnen, rest)
    | some .ilv  =>
      match decodeTransfer w0 rest with
      | .ok (x, r) => .ok (.ilv x, r)
      | .error e   => .error e
    | some .dilv =>
      match decodeTransfer w0 rest with
      | .ok (x, r) => .ok (.dilv x, r)
      | .error e   => .error e

/-- Word 0 of a format `T` command: `OPC ++ RSV0 ++ CH` with `RSV0 = 0` (30 R36). -/
def headWord (opc : BitVec 8) (ch : BitVec 16) : Word := opc ++ 0#8 ++ ch

/-- The words of a format `T` command after word 0 (30 R36). -/
def Transfer.operandWords (x : Transfer) : List Word := x.frames :: x.pcm :: x.planes

/-- The words of a command, word 0 first (30 R36, R37, R38). -/
def encode : Instr → List Word
  | .ilv x  => headWord 0x01#8 x.ch :: x.operandWords
  | .dilv x => headWord 0x02#8 x.ch :: x.operandWords
  | .dnen   => [0x03#8 ++ 0#23 ++ 1#1]

/-- The 32-bit words of an instruction numbered as the opcode table numbers its bits: word `j` is bits
`32*j+31 .. 32*j`, bits above `nbits` are 0, and there are as many words as word 0 says (30 R39). -/
def tableWords (nbits w : Nat) : List Word :=
  (List.range (commandLength (BitVec.ofNat 32 (w % 2 ^ nbits)))).map
    fun j => BitVec.ofNat 32 (w % 2 ^ nbits / 2 ^ (32 * j))

/-- The instruction the decoder reads from an instruction whose bits are `w` (the host's question). -/
def decodeTableWord (nbits w : Nat) : Option Instr :=
  match decode (tableWords nbits w) with
  | .ok (i, []) => some i
  | _           => none

end Sys2Proof
end

