-- ==== Sys2Proof/Machine/Port.lean ====
section
/-! DEFINITION. The command ports and the host's other actions: collecting the words of a command (30 R35), the
checks at the start of its execution (60 R86), and what another agent may not do meanwhile (20 R31, R32; 70 R104). -/

namespace Sys2Proof.Machine

/-- The command in execution on context `t`: all its words collected and not yet completed (30 R35). -/
def State.executing (s : State) (t : Nat) : Option Instr :=
  match decode (s.portWords t) with
  | .ok (i, _) => some i
  | .error _   => none

/-- The byte ranges a command reads (20 R28). -/
def readSpans : Instr → List Span
  | .ilv x  => planeSpans x
  | .dilv x => [pcmSpan x]
  | .dnen   => []

/-- The byte ranges a command writes (20 R28). -/
def writeSpans : Instr → List Span
  | .ilv x  => [pcmSpan x]
  | .dilv x => planeSpans x
  | .dnen   => []

/-- All buffers of a command. A plane reaches as far as the `F` elements that the command uses, also for what the host
and other contexts may not do meanwhile; that is the model's choice, since a plane may be longer (20 R21; log entry
25). -/
def bufferSpans (i : Instr) : List Span := readSpans i ++ writeSpans i

/-- Some range of one list intersects some range of the other. -/
def anyMeet (ps qs : List Span) : Bool := ps.any fun p => qs.any p.meets

/-- The buffers of two commands are not disjoint: "one writes a byte the other reads or writes" (20 R32). -/
def conflict (i j : Instr) : Bool :=
  anyMeet (writeSpans i) (bufferSpans j) || anyMeet (readSpans i) (writeSpans j)

/-- The contract breach that the checks of a command find, decided from the command and `ALLOC` alone (60 R86). -/
def breachOf (i : Instr) (alloc : List Span) : Option FaultReason :=
  match i with
  | .ilv x  => ilvBreach x alloc
  | .dilv x => dilvBreach x alloc
  | .dnen   => none

/-- The commands in execution on contexts other than `t`. -/
def State.othersExecuting (s : State) (t : Nat) : List Instr :=
  ((List.range s.contexts.length).filter (fun u => u != t)).filterMap s.executing

/-- All commands in execution. -/
def State.allExecuting (s : State) : List Instr :=
  (List.range s.contexts.length).filterMap s.executing

/-- Context `t` begins to execute the command that its port now holds whole: the checks, "before any access"; then,
with the commands of other contexts in execution, the rule of 20 R32. -/
def beginCommand (t : Nat) (i : Instr) (s : State) : Result :=
  match breachOf i s.alloc with
  | some r => raise r s
  | none =>
    match (s.othersExecuting t).filter (conflict i) with
    | [] => .next s
    | js => raiseRace ((i :: js).flatMap bufferSpans) s

/-- The port of context `t`, which is not executing, takes a word (30 R35): an illegal word 0 raises at once (60 R88),
the last word of a command begins its execution, any other word is kept. -/
def acceptWord (t : Nat) (w : Word) (s : State) : Result :=
  match decode (s.portWords t ++ [w]) with
  | .error .reservedEncoding => raise .reservedEncoding (s.setPort t (s.portWords t ++ [w]))
  | .error .incomplete       => .next (s.setPort t (s.portWords t ++ [w]))
  | .ok (i, _)               => beginCommand t i (s.setPort t (s.portWords t ++ [w]))

/-- The host reads a byte. It may not read the output buffer of a command in execution (20 R31). -/
def hostLoad (a : Word) (s : State) : Result :=
  match s.allExecuting.filter (fun i => (writeSpans i).any (fun sp => sp.has a.toNat)) with
  | [] => .next s
  | is => raiseRace (is.flatMap bufferSpans) s

/-- The host writes a byte. It may not write an input or output buffer of a command in execution (20 R31). -/
def hostStore (a : Word) (b : Byte) (s : State) : Result :=
  match s.allExecuting.filter (fun i => (bufferSpans i).any (fun sp => sp.has a.toNat)) with
  | [] => .next (s.setMem (s.mem.write a.toNat b))
  | is => raiseRace (is.flatMap bufferSpans) s

/-- The host creates a buffer (70 R104). -/
def hostCreate (sp : Span) (s : State) : Result := .next (s.setAlloc (sp :: s.alloc))

/-- The host destroys a buffer. It may not destroy one of a command in execution (70 R104; log entry 8). -/
def hostDestroy (sp : Span) (s : State) : Result :=
  if s.alloc.contains sp then
    match s.allExecuting.filter (fun i => (bufferSpans i).any sp.meets) with
    | [] => .next (s.setAlloc (s.alloc.filter (fun q => q != sp)))
    | is => raiseRace (is.flatMap bufferSpans) s
  else .next s

end Sys2Proof.Machine
end

