-- ==== Sys2Proof/Machine/Fetch.lean ====
section
/-! DEFINITION. What a step does: the command of a context runs to completion, or a host action takes place. -/

namespace Sys2Proof.Machine

/-- The command that the port of context `t` holds whole is decoded and runs, as one atomic step (20 R30). A port that
holds no whole command has nothing to run. -/
def runContext (t : Nat) (s : State) : Result :=
  match decode (s.portWords t) with
  | .ok (i, _)               => exec i (s.setCur t)
  | .error .reservedEncoding => raise .reservedEncoding s
  | .error .incomplete       => .next s

/-- The lowest-numbered context that executes a command. -/
def State.firstExecuting (s : State) : Option Nat :=
  (List.range s.contexts.length).find? fun t => (s.executing t).isSome

/-- No host action is pending: a command in execution runs to completion, since every command terminates (70 R105);
with none, nothing happens (70 R99: "nothing executes until the host issues a command"). -/
def idleStep (s : State) : Result :=
  match s.firstExecuting with
  | some t => runContext t s
  | none   => .next s

/-- The host writes a word to the port of context `t`. While the port executes it accepts no word of the next command
(30 R35): the command in execution runs to completion first, the write still pending (log entry 6). -/
def portWrite (t : Nat) (w : Word) (rest : List HostAction) (s : State) : Result :=
  if s.contexts.length ≤ t then .fault (.noSuchContext t)
  else
    match s.executing t with
    | some _ => runContext t s
    | none   => acceptWord t w (s.setInbox rest)

/-- The command in execution on context `t` runs now. -/
def advanceContext (t : Nat) (s : State) : Result :=
  if s.contexts.length ≤ t then .fault (.noSuchContext t) else runContext t s

/-- The host's next action takes place. -/
def hostStep (act : HostAction) (rest : List HostAction) (s : State) : Result :=
  match act with
  | .reset         => .next (s.setInbox rest).resetBlock
  | .writePort t w => portWrite t w rest s
  | .advance t     => advanceContext t (s.setInbox rest)
  | .load a        => hostLoad a (s.setInbox rest)
  | .store a b     => hostStore a b (s.setInbox rest)
  | .create sp     => hostCreate sp (s.setInbox rest)
  | .destroy sp    => hostDestroy sp (s.setInbox rest)

/-- One step of a block whose `FAULTED` mark is clear. -/
def liveStep (s : State) : Result :=
  match s.inbox with
  | []          => idleStep s
  | act :: rest => hostStep act rest s

/-- One step of a block whose `FAULTED` mark is set: "The only way out of the faulted state is reset" (60 R94). -/
def faultedStep (r : FaultReason) (s : State) : Result :=
  match s.inbox with
  | .reset :: rest => .next (s.setInbox rest).resetBlock
  | _              => .fault (.halted r)

end Sys2Proof.Machine
end

