-- ==== Sys2Proof/Machine/Step.lean ====
section
/-! DEFINITION. The step function, and the placing of one command where the next step runs it. -/

namespace Sys2Proof.Machine

/-- One step of the block. -/
def step (s : State) : Host.Outcome State Fault Refusal :=
  match s.faulted with
  | some r => faultedStep r s
  | none   => liveStep s

/-- The command with the bits `w` placed, whole, in the port of the current context, and that context chosen to move
next: the load of a program that the host performs (log entry 4). -/
def State.withFetchWord (s : State) (nbits w : Nat) : State :=
  (s.setPort s.cur (tableWords nbits w)).setInbox (.advance s.cur :: s.inbox)

end Sys2Proof.Machine
end

