-- ==== Sys2Proof/Safety.lean ====
section
/-! DEFINITION. What counts as a safe run, in the terms the claims use: the end of a run (70 R105), the host's duty of
70 R100, the invariant of the state, and what a step may rely on. -/

namespace Sys2Proof.Safety

open Sys2Proof.Machine

/-- Some breach or illegal command has happened (10 R17). -/
abbrev Faulted (s : State) : Prop := s.faulted ≠ none

/-- The end of a run: every command has completed and `FAULTED` is clear (70 R105). No host action is pending and
every port is idle. Where the host's list holds a reset, the run is counted from the last one, by the model's choice
(log entry 26). -/
abbrev Ended (s : State) : Prop :=
  s.inbox = [] ∧ s.faulted = none ∧ ∀ c ∈ s.contexts, c.words = []

/-- The host's duty on one context's list of commands: "in each context's list, a `DNEN` precedes the first `ILV` or
`DILV`" (70 R100). Since every other command is one of those two, the list's first command is `DNEN`. -/
def dnenFirst : List Instr → Bool
  | []      => true
  | i :: _  => i == .dnen

/-- The parts of the state that belong to contexts have the shape that `CFG` gives them (10 R11, 60 R97). -/
structure Shape (s : State) : Prop where
  cfg_wf   : s.cfg.wf = true
  contexts : s.contexts.length = s.cfg.nctx
  dnctl    : s.dnctl.length = dnctlCount s.cfg
  cur      : s.cur < s.cfg.nctx

/-- Every `DNCTL` register holds `0x0` or `0x3`, and `0x0` where the mode is not supported (10 R10, 42 R73). -/
def DnctlLegal (s : State) : Prop :=
  ∀ r ∈ s.dnctl, r = 0#32 ∨ (r = 3#32 ∧ s.cfg.dnSupported = true)

/-- The words in a port are a proper part of one command or exactly one command, never an illegal word (30 R35, R39,
R41). -/
def PortLegal (ws : List Word) : Prop :=
  (ws = []) ∨ decode ws = .error .incomplete ∨ ∃ i, decode ws = .ok (i, [])

/-- The commands in execution have passed their checks, and those of different contexts have disjoint buffers
(60 R86, 20 R32). -/
structure InFlight (s : State) : Prop where
  ports    : ∀ t, PortLegal (s.portWords t)
  checked  : ∀ t i, s.executing t = some i → breachOf i s.alloc = none
  disjoint : ∀ t u i j, t ≠ u → s.executing t = some i → s.executing u = some j → conflict i j = false

/-- The invariant that every step keeps. A block whose `FAULTED` mark is set executes nothing until reset, so its
ports need no further care. -/
structure Inv (s : State) : Prop where
  mem_wf   : Memory.wf s.mem = true
  shape    : Shape s
  dnctl    : DnctlLegal s
  inFlight : s.faulted = none → InFlight s

/-! ### The caller's obligations (40 R49, 41 R64), one predicate per line of the rules -/

/-- "Owned": the byte range `[a, a + n)` lies wholly inside one span of `ALLOC`, whose spans have `base >= 1` and
`base + length <= 2^32` (20 R22). -/
def OwnedRange (alloc : List Span) (a n : Nat) : Prop :=
  ∃ sp ∈ alloc, 1 ≤ sp.base ∧ sp.base + sp.len ≤ memSize ∧ sp.base ≤ a ∧ a + n ≤ sp.base + sp.len

/-- The byte ranges `[a, a + n)` and `[b, b + m)` do not intersect (20 R29). -/
def Apart (a n b m : Nat) : Prop := ∀ p, ¬((a ≤ p ∧ p < a + n) ∧ (b ≤ p ∧ p < b + m))

/-- Line 1: neither `C = 0` nor `F = 0`. -/
def CountsPositive (x : Transfer) : Prop := chCount x ≠ 0 ∧ frameCount x ≠ 0

/-- Line 2: neither `PCM_BASE = 0` nor some `PLANE_BASE[c] = 0`. -/
def NoNull (x : Transfer) : Prop := x.pcm.toNat ≠ 0 ∧ ∀ b ∈ x.planes, b.toNat ≠ 0

/-- Line 3: `PCM_BASE` is a multiple of 2 and every `PLANE_BASE[c]` of 4. -/
def Aligned (x : Transfer) : Prop := x.pcm.toNat % 2 = 0 ∧ ∀ b ∈ x.planes, b.toNat % 4 = 0

/-- Line 4: `[PCM_BASE, PCM_BASE + 2*C*F)` and every `[PLANE_BASE[c], PLANE_BASE[c] + 4*F)` are owned, read element
by element as 20 R22, 60 R86 and D10 say (log entry 9). -/
def BuffersOwned (x : Transfer) (alloc : List Span) : Prop :=
  (∀ f c, f < frameCount x → c < chCount x → OwnedRange alloc (pcmAddr x f c) 2) ∧
    ∀ b ∈ x.planes, ∀ f, f < frameCount x → OwnedRange alloc (b.toNat + 4 * f) 4

/-- Line 5 of `ILV`: the output does not intersect a plane. -/
def OutputApart (x : Transfer) : Prop :=
  ∀ b ∈ x.planes, Apart x.pcm.toNat (2 * chCount x * frameCount x) b.toNat (4 * frameCount x)

/-- Line 5 of `DILV`, second part: two planes of different channels do not intersect. -/
def PlanesApart (x : Transfer) : Prop :=
  ∀ c d (hc : c < x.planes.length) (hd : d < x.planes.length), c ≠ d →
    Apart x.planes[c].toNat (4 * frameCount x) x.planes[d].toNat (4 * frameCount x)

/-- What both converters check before the overlap check. -/
structure BasicContract (x : Transfer) (alloc : List Span) : Prop where
  counts  : CountsPositive x
  nonNull : NoNull x
  aligned : Aligned x
  owned   : BuffersOwned x alloc

/-- The state is live, the term spells a command, and the issuing context exists. -/
structure Issued (x : Transfer) (s : State) : Prop where
  wf   : x.wf = true
  live : s.faulted = none
  ctx  : s.cur < s.contexts.length

/-- All that `ILV` checks holds (40 R49, ownership by element: log entry 9). -/
structure IlvReady (x : Transfer) (s : State) : Prop where
  issued : Issued x s
  basic  : BasicContract x s.alloc
  apart  : OutputApart x

/-- All that `DILV` checks holds (41 R64, ownership by element: log entry 9). -/
structure DilvReady (x : Transfer) (s : State) : Prop where
  issued : Issued x s
  basic  : BasicContract x s.alloc
  apart  : OutputApart x
  planes : PlanesApart x

/-! ### Commands in execution -/

/-- The state is live and legal, and context `t` has the command `i` in execution. -/
structure Executes (s : State) (t : Nat) (i : Instr) : Prop where
  inv     : Inv s
  live    : s.faulted = none
  command : s.executing t = some i

/-- A command in execution has a buffer, among those that `spans` selects, that holds the byte at address `a`. -/
def InBufferOfRunning (spans : Instr → List Span) (s : State) (a : Nat) : Prop :=
  ∃ t i, t < s.contexts.length ∧ s.executing t = some i ∧ ∃ sp ∈ spans i, sp.base ≤ a ∧ a < sp.base + sp.len

end Sys2Proof.Safety
end

