-- ==== Sys2Proof/Certificates/Slice0/Obligations.lean ====
section
/-! DEFINITION. The statements for the provers. A rule R<n> is cited with the number of its file of spec/. -/

open Sys2Proof Sys2Proof.Machine Sys2Proof.Safety

/-! ### Encoding (30_encoding.md) -/

/-- Decoding the words of a well-formed command, followed by any words, gives the command back with every operand and
leaves those words (30 R36, R37, R39, R40). -/
def Obligations.DecodeOfEncodeIsTheCommand : Prop :=
  ∀ (i : Instr) (rest : List Word), i.wf = true → decode (encode i ++ rest) = .ok (i, rest)

/-- Each command has one spelling: words that decode are the encoding of the command they decode to, which is well
formed, followed by the words left over (30 R36 to R39, R42). -/
def Obligations.DecodedWordsAreTheEncoding : Prop :=
  ∀ (ws : List Word) (i : Instr) (rest : List Word),
    decode ws = .ok (i, rest) → i.wf = true ∧ ws = encode i ++ rest

/-- 30 R39. Word 0 alone decides the length: `3 + CH` words for `ILV` and `DILV`, one for `DNEN`, and one word, none
further consumed, where it is illegal. -/
def Obligations.WordZeroDecidesTheLength : Prop :=
  ∀ (w0 : Word) (rest : List Word),
    (w0.extractLsb' 16 16 = 0x0100#16 ∨ w0.extractLsb' 16 16 = 0x0200#16 →
      (decode (w0 :: rest) = .error .incomplete ↔ (w0 :: rest).length < 3 + (w0.extractLsb' 0 16).toNat) ∧
      (3 + (w0.extractLsb' 0 16).toNat ≤ (w0 :: rest).length →
        ∃ i, decode (w0 :: rest) = .ok (i, (w0 :: rest).drop (3 + (w0.extractLsb' 0 16).toNat)))) ∧
    (w0 = 0x03000001#32 → decode (w0 :: rest) = .ok (.dnen, rest)) ∧
    (w0.extractLsb' 16 16 ≠ 0x0100#16 → w0.extractLsb' 16 16 ≠ 0x0200#16 → w0 ≠ 0x03000001#32 →
      decode (w0 :: rest) = .error .reservedEncoding ∧ decode [w0] = .error .reservedEncoding)

/-- The worked encodings of 30 R47 and the vectors E1 to E11 of 95_test_vectors.md section 5, read by the decoder. -/
def Obligations.WorkedEncodingsDecode : Prop :=
  decode [0x03000001#32] = .ok (.dnen, []) ∧
  decode [0x01000002#32, 0x00000003#32, 0x00002000#32, 0x00001000#32, 0x00001100#32] =
    .ok (.ilv ⟨2#16, 3#32, 0x2000#32, [0x1000#32, 0x1100#32]⟩, []) ∧
  decode [0x02000001#32, 0x00000400#32, 0x00008000#32, 0x00010000#32] =
    .ok (.dilv ⟨1#16, 1024#32, 0x8000#32, [0x10000#32]⟩, []) ∧
  decode [0x02000002#32, 0x00010000#32, 0x00100000#32, 0x00200000#32, 0x00240000#32] =
    .ok (.dilv ⟨2#16, 65536#32, 0x100000#32, [0x200000#32, 0x240000#32]⟩, []) ∧
  decode [0x00000000#32] = .error .reservedEncoding ∧
  decode [0x04000000#32] = .error .reservedEncoding ∧
  decode [0xFF000001#32] = .error .reservedEncoding ∧
  decode [0x03000000#32] = .error .reservedEncoding ∧
  decode [0x03000003#32] = .error .reservedEncoding ∧
  decode [0x01010002#32] = .error .reservedEncoding ∧
  decode [0x01000000#32, 0x00000001#32, 0x00002000#32] = .ok (.ilv ⟨0#16, 1#32, 0x2000#32, []⟩, [])

/-! ### The command port, faults and reset (30 R35, R41; 60; 70) -/

/-- A step that lets context `t` move runs the command that its port holds whole: the step is `exec` of the decoded
command, issued by `t` (30 R35, 20 R30). That is so where the host lets it move, the action then taken from the list;
and, by the model's choice, where no action is pending and `t` is the lowest context with a command in execution (log
entry 7), and where the next action writes to the port of `t`, that action still pending (log entry 6). -/
def Obligations.StepRunsTheDecodedCommand : Prop :=
  ∀ (s : State) (t : Nat) (acts : List HostAction) (w : Word) (i : Instr) (rest : List Word),
    s.faulted = none → t < s.contexts.length → decode (s.portWords t) = .ok (i, rest) →
    (s.inbox = .advance t :: acts → step s = exec i ((s.setInbox acts).setCur t)) ∧
    (s.inbox = [] → (∀ u, u < t → s.executing u = none) → step s = exec i (s.setCur t)) ∧
    (s.inbox = .writePort t w :: acts → step s = exec i (s.setCur t))

/-- A word 0 written to an idle port raises `IllegalCommand` exactly when `OPC` is `0x00` or `0x04..0xFF`, or `OPC` is
`0x01` or `0x02` with `RSV0 != 0`, or `OPC` is `0x03` with `RSV1 != 0` or `EN = 0` (30 R41); nothing else changes but
the port. A legal word 0 raises nothing and is kept (30 R35); that the port also keeps the illegal word is the model's
choice (log entry 21). -/
def Obligations.IllegalWordRaisesAtOnce : Prop :=
  ∀ (s : State) (t : Nat) (w : Word) (acts : List HostAction),
    s.faulted = none → t < s.contexts.length → s.portWords t = [] → s.inbox = .writePort t w :: acts →
    ((w.extractLsb' 24 8 = 0#8 ∨ 4#8 ≤ w.extractLsb' 24 8 ∨
        ((w.extractLsb' 24 8 = 1#8 ∨ w.extractLsb' 24 8 = 2#8) ∧ w.extractLsb' 16 8 ≠ 0#8) ∨
        (w.extractLsb' 24 8 = 3#8 ∧ (w.extractLsb' 1 23 ≠ 0#23 ∨ w.extractLsb' 0 1 = 0#1))) →
      step s = .next (((s.setInbox acts).setPort t [w]).setFaulted .reservedEncoding)) ∧
    (¬(w.extractLsb' 24 8 = 0#8 ∨ 4#8 ≤ w.extractLsb' 24 8 ∨
        ((w.extractLsb' 24 8 = 1#8 ∨ w.extractLsb' 24 8 = 2#8) ∧ w.extractLsb' 16 8 ≠ 0#8) ∨
        (w.extractLsb' 24 8 = 3#8 ∧ (w.extractLsb' 1 23 ≠ 0#23 ∨ w.extractLsb' 0 1 = 0#1))) →
      step s = .next ((s.setInbox acts).setPort t [w]))

/-- A port that executes nothing keeps each word of a command in order; the word that makes the command whole begins
its execution, and with the checks passed and no conflict nothing else changes (30 R35). Where the checks find a breach
that word raises it (60 R86, R87), and nothing else changes; that they are made at this word already is log entry 17,
and that the port keeps the command's words log entry 21, both the model's choice. -/
def Obligations.PortCollectsWordsInOrder : Prop :=
  ∀ (s : State) (t : Nat) (w : Word) (acts : List HostAction),
    s.faulted = none → t < s.contexts.length → s.executing t = none → s.inbox = .writePort t w :: acts →
    (decode (s.portWords t ++ [w]) = .error .incomplete →
      step s = .next ((s.setInbox acts).setPort t (s.portWords t ++ [w]))) ∧
    (∀ i rest, decode (s.portWords t ++ [w]) = .ok (i, rest) → breachOf i s.alloc = none →
      (∀ u j, u ≠ t → s.executing u = some j → conflict i j = false) →
      ∃ s', step s = .next s' ∧ s' = (s.setInbox acts).setPort t (s.portWords t ++ [w]) ∧
        s'.executing t = some i) ∧
    (∀ i rest r, decode (s.portWords t ++ [w]) = .ok (i, rest) → breachOf i s.alloc = some r →
      step s = .next (((s.setInbox acts).setPort t (s.portWords t ++ [w])).setFaulted r))

/-- While `FAULTED` is set no command has an effect, and a step answers a next state only when it is a reset, which
clears the mark (60 R87, R94). That every meaning then stops as `halted` is log entry 12, and that every host action but
a reset stops too log entry 13, both the model's choice. -/
def Obligations.FaultedBlockRunsNothingUntilReset : Prop :=
  ∀ (s : State) (r : FaultReason), s.faulted = some r →
    (∀ i, exec i s = .fault (.halted r)) ∧
    (∀ s', step s = .next s' → s'.faulted = none ∧ ∃ acts, s.inbox = .reset :: acts)

/-- The reset of the block, from every state, leaves both fields and the reserved bits of every `DNCTL[t]` 0, `FAULTED`
clear and every port idle, and does not touch the data memory; the same values stand in `State.reset` (10 R18). The
model's choice: that the host applies the reset (log entry 24), that memory is unchanged also where a command was in
execution (log entry 22), and that `CFG` and `ALLOC` (log entry 1) and the pending actions (log entry 4) stay. -/
def Obligations.ResetLeavesTheSpecValues : Prop :=
  (∀ (s : State) (acts : List HostAction), s.inbox = .reset :: acts →
    ∃ s', step s = .next s' ∧
      (∀ t, ftz (s'.dnctlOf t) = false ∧ daz (s'.dnctlOf t) = false ∧ s'.dnctlOf t = 0#32) ∧
      s'.faulted = none ∧ (∀ t, s'.portWords t = []) ∧
      s'.mem = s.mem ∧ s'.cfg = s.cfg ∧ s'.alloc = s.alloc ∧ s'.inbox = acts) ∧
  (∀ t, State.reset.dnctlOf t = 0#32) ∧ State.reset.faulted = none ∧ (∀ t, State.reset.portWords t = [])

/-- After reset "nothing executes until the host issues a command" (70 R99): with no host action pending and no command
in execution a step changes nothing. -/
def Obligations.IdleBlockDoesNothing : Prop :=
  ∀ (s : State), s.faulted = none → s.inbox = [] → (∀ t, s.executing t = none) → step s = .next s

/-! ### Memory (20 R24, R25) -/

/-- 20 R24, R25. `MemRead(addr, n)` is the sum of the bytes `mem[addr + i] * 256^i`; `MemWrite(addr, n, v)` sets
`mem[addr + i]` to `(v div 256^i) mod 256` and changes no other byte. -/
def Obligations.MemoryAccessIsLittleEndian : Prop :=
  ∀ (m : Memory) (a n v : Nat),
    memRead m a n = ∑ i ∈ Finset.range n, (m.read (a + i)).toNat * 256 ^ i ∧
    (∀ i, i < n → ((memWrite m a n v).read (a + i)).toNat = v / 256 ^ i % 256) ∧
    ∀ x, x < a ∨ a + n ≤ x → (memWrite m a n v).read x = m.read x

/-! ### What other agents may not do (20 R31, R32; 70 R104) -/

/-- A host that writes a byte of an input or output buffer of a command in execution, or reads a byte of its output
buffer, makes the run a `ContractBreach(Race)`; bytes outside the buffers of commands in execution, and `DNCTL`, stay
(the bytes inside are free values, 60 R87). That no byte outside changes is the model's choice (log entry 5), and so is
that a plane reaches no further than its `F` elements used (log entry 25). Any other access is plain: a load changes
nothing (log entry 20) and a store changes its byte. -/
def Obligations.HostAccessToARunningBufferIsARace : Prop :=
  ∀ (s : State) (a : Word) (b : Byte) (acts : List HostAction), s.faulted = none →
    (s.inbox = .store a b :: acts →
      (InBufferOfRunning bufferSpans s a.toNat → ∃ s', step s = .next s' ∧ s'.faulted = some .race ∧
        s'.dnctl = s.dnctl ∧ s'.contexts = s.contexts ∧ s'.alloc = s.alloc ∧
        ∀ p, ¬InBufferOfRunning bufferSpans s p → s'.mem.read p = s.mem.read p) ∧
      (¬InBufferOfRunning bufferSpans s a.toNat →
        step s = .next ((s.setInbox acts).setMem (s.mem.write a.toNat b)))) ∧
    (s.inbox = .load a :: acts →
      (InBufferOfRunning writeSpans s a.toNat → ∃ s', step s = .next s' ∧ s'.faulted = some .race ∧
        s'.dnctl = s.dnctl ∧ s'.contexts = s.contexts ∧ s'.alloc = s.alloc ∧
        ∀ p, ¬InBufferOfRunning bufferSpans s p → s'.mem.read p = s.mem.read p) ∧
      (¬InBufferOfRunning writeSpans s a.toNat → step s = .next (s.setInbox acts)))

/-- A command that begins while another context executes one, one of the two writing a byte that the other reads or
writes, is a `ContractBreach(Race)` (20 R32); `DNCTL`, `ALLOC` and every byte outside the buffers of the commands then
in execution stay. That "the buffers involved" (60 R87) reach no further than those is the model's choice (log entry
5). -/
def Obligations.ConflictingCommandsAreARace : Prop :=
  ∀ (s : State) (t u : Nat) (w : Word) (acts : List HostAction) (i j : Instr) (rest : List Word) (p q : Span) (a : Nat),
    s.faulted = none → t < s.contexts.length → s.executing t = none → s.inbox = .writePort t w :: acts →
    decode (s.portWords t ++ [w]) = .ok (i, rest) → breachOf i s.alloc = none →
    u ≠ t → s.executing u = some j →
    ((p ∈ writeSpans i ∧ q ∈ bufferSpans j) ∨ (p ∈ readSpans i ∧ q ∈ writeSpans j)) →
    p.base ≤ a → a < p.base + p.len → q.base ≤ a → a < q.base + q.len →
    ∃ s', step s = .next s' ∧ s'.faulted = some .race ∧ s'.dnctl = s.dnctl ∧ s'.alloc = s.alloc ∧
      ∀ k, ¬InBufferOfRunning bufferSpans s k →
        (∀ sp ∈ bufferSpans i, ¬(sp.base ≤ k ∧ k < sp.base + sp.len)) → s'.mem.read k = s.mem.read k

/-- 20 R32. Two commands in execution on different contexts (so, by the invariant, on disjoint buffers) give the same
final state in either order; only the model's note of who ran last (log entry 3) differs. -/
def Obligations.ConcurrentCommandsCommute : Prop :=
  ∀ (s : State) (t u : Nat) (i j : Instr), t ≠ u → Executes s t i → Executes s u j →
    ∃ a b, core.run 2 (s.setInbox [.advance t, .advance u]) = .next a ∧
      core.run 2 (s.setInbox [.advance u, .advance t]) = .next b ∧
      a.faulted = none ∧ a.setCur 0 = b.setCur 0

/-- 70 R105: every command in execution terminates. In a legal state a step that lets it move completes it: no fault
can arise any more from the command itself, its port is idle and its context's count of completed commands, which is
the model's own (log entry 3), is one higher. -/
def Obligations.CommandInExecutionCompletes : Prop :=
  ∀ (s : State) (t : Nat) (i : Instr) (acts : List HostAction),
    Executes s t i → s.inbox = .advance t :: acts →
    ∃ s', step s = .next s' ∧ s'.faulted = none ∧ s'.portWords t = [] ∧
      s'.completedOf t = s.completedOf t + 1 ∧ s'.inbox = acts ∧
      ∀ u, u ≠ t → s'.portWords u = s.portWords u ∧ s'.completedOf u = s.completedOf u

/-! ### Invariants and rules of the whole machine -/

/-- Every step keeps the invariant: memory in canonical form inside the address space, `CFG` well formed and the
contexts and registers as many as it says, every `DNCTL` register `0x0` or `0x3`, every port holding part or all of one
legal command, and the commands in execution checked and disjoint. -/
def Obligations.EveryStepKeepsTheInvariant : Prop :=
  ∀ (s s' : State), Inv s → step s = .next s' → Inv s'

/-- The invariant holds after reset, for every well-formed configuration, every set of buffers and every memory in
canonical form that the host has prepared. -/
def Obligations.ResetMeetsTheInvariant : Prop :=
  Inv State.reset ∧ ∀ (cfg : Cfg) (alloc : List Span) (mem : Memory),
    cfg.wf = true → Memory.wf mem = true → Inv (State.resetWith cfg alloc mem)

/-- 00 R7, D34: no step changes `CFG`. -/
def Obligations.NoStepChangesTheConfiguration : Prop :=
  ∀ (s s' : State), step s = .next s' → s'.cfg = s.cfg

/-- 10 R16, 42 R74: `DNCTL` changes only in a step that is a reset or that completes a `DNEN`. -/
def Obligations.OnlyDnenAndResetWriteDnctl : Prop :=
  ∀ (s s' : State), step s = .next s' → s'.dnctl ≠ s.dnctl →
    (∃ acts, s.inbox = .reset :: acts) ∨ ∃ t, s.executing t = some .dnen ∧ s'.portWords t = []

/-- A byte of memory changes only by the host's own store to it, inside the output buffer of a command in execution
(10 R19, 20 R28), or by a Race, and then inside a buffer of a command in execution or of the one about to begin (60 R87
leaves "the buffers involved" unspecified; that they are these is the model's choice, log entry 5). -/
def Obligations.MemoryChangesOnlyInOutputBuffers : Prop :=
  ∀ (s s' : State) (a : Nat), step s = .next s' → s'.mem.read a ≠ s.mem.read a →
    (∃ p b acts, s.inbox = .store p b :: acts ∧ p.toNat = a) ∨
    InBufferOfRunning writeSpans s a ∨
    (s'.faulted = some .race ∧
      (InBufferOfRunning bufferSpans s a ∨
        ∃ t w acts i rest, s.inbox = .writePort t w :: acts ∧ decode (s.portWords t ++ [w]) = .ok (i, rest) ∧
          ∃ sp ∈ bufferSpans i, sp.base ≤ a ∧ a < sp.base + sp.len))

/-! ### ILV (40_interleave.md) -/

/-- Before any access `ILV` makes its checks in the order of 40 R49 and raises the first that fails, which sets
`FAULTED` and changes nothing else; where none fails it raises nothing. Ownership is that of every element, as 20 R22,
60 R86 and D10 have it, where 40 R49 names the whole ranges (log entry 9). -/
def Obligations.IlvRaisesTheFirstFailingCheck : Prop :=
  ∀ (x : Transfer) (s : State), Issued x s →
    (¬CountsPositive x → exec (.ilv x) s = .next (s.setFaulted .zeroCount)) ∧
    (CountsPositive x → ¬NoNull x → exec (.ilv x) s = .next (s.setFaulted .nullBuffer)) ∧
    (CountsPositive x → NoNull x → ¬Aligned x → exec (.ilv x) s = .next (s.setFaulted .misaligned)) ∧
    (CountsPositive x → NoNull x → Aligned x → ¬BuffersOwned x s.alloc →
      exec (.ilv x) s = .next (s.setFaulted .capacity)) ∧
    (BasicContract x s.alloc → ¬OutputApart x → exec (.ilv x) s = .next (s.setFaulted .overlap)) ∧
    (BasicContract x s.alloc → OutputApart x → ∃ s', exec (.ilv x) s = .next s' ∧ s'.faulted = none)

/-- With its checks passed `ILV` completes with status `OK` (40 R52); every output sample is `f2p` of the input sample of
the same channel and frame, as that was before the command; every other byte of memory, the input planes among them,
and `DNCTL` are unchanged. The checks are those of 40 R49, but that ownership is that of every element, as 20 R22,
60 R86 and D10 have it, where 40 R49 names the whole ranges (log entry 9); the count of completed commands is the
model's own (log entry 3). -/
def Obligations.IlvConvertsEverySample : Prop :=
  ∀ (x : Transfer) (s : State), IlvReady x s →
    ∃ s', exec (.ilv x) s = .next s' ∧ s'.faulted = none ∧
      (∀ f c, f < frameCount x → c < chCount x →
        memRead s'.mem (x.pcm.toNat + 2 * (f * chCount x + c)) 2 =
          (enc16 (f2p s.cfg (s.dnctlOf s.cur)
            (BitVec.ofNat 32 (memRead s.mem ((x.planes.getD c 0#32).toNat + 4 * f) 4)))).toNat) ∧
      (∀ a, a < x.pcm.toNat ∨ x.pcm.toNat + 2 * chCount x * frameCount x ≤ a → s'.mem.read a = s.mem.read a) ∧
      (∀ c f, c < chCount x → f < frameCount x →
        memRead s'.mem ((x.planes.getD c 0#32).toNat + 4 * f) 4 =
          memRead s.mem ((x.planes.getD c 0#32).toNat + 4 * f) 4) ∧
      s'.dnctl = s.dnctl ∧ s'.portWords s.cur = [] ∧ s'.completedOf s.cur = s.completedOf s.cur + 1

/-- The frame of `ILV`: when it gives a next state, `CFG`, `ALLOC`, `DNCTL`, the host's pending actions, the free-value
counter and every other context are as before; every byte outside the PCM buffer is as before; and where `FAULTED` got
set, every byte of memory and every context is as before (40 R48, 20 R28, 60 R87). -/
def Obligations.IlvFrame : Prop :=
  ∀ (x : Transfer) (s s' : State), exec (.ilv x) s = .next s' →
    s'.cfg = s.cfg ∧ s'.alloc = s.alloc ∧ s'.dnctl = s.dnctl ∧ s'.inbox = s.inbox ∧ s'.cur = s.cur ∧
    s'.fresh = s.fresh ∧
    (∀ u, u ≠ s.cur → s'.portWords u = s.portWords u ∧ s'.completedOf u = s.completedOf u) ∧
    (∀ a, a < pcmAddr x 0 0 ∨ pcmAddr x 0 0 + 2 * (chCount x * frameCount x) ≤ a →
      s'.mem.read a = s.mem.read a) ∧
    (s'.faulted ≠ none → s'.contexts = s.contexts ∧ ∀ a, s'.mem.read a = s.mem.read a)

/-- 20 R30: the order in which `ILV` treats its elements cannot be observed. Its checks take ownership by element (log
entry 9). -/
def Obligations.IlvElementOrderIsUnobservable : Prop :=
  ∀ (x : Transfer) (s : State) (order : List (Nat × Nat)),
    IlvReady x s → Memory.wf s.mem = true → order.Perm (elements x) →
    exec (.ilv x) s = .next (s.setMem (ilvLoop s.cfg (s.dnctlOf s.cur) x order s.mem)).complete

/-- 40 R54, R55, R56. A NaN gives `C_NAN` whatever its sign and fraction, +infinity gives `C_PINF`, -infinity
`C_NINF`; a finite sample whose exact scaled value exceeds 32767 gives 32767, one below -32768 gives -32768, and the
two bounds give themselves. -/
def Obligations.SpecialValuesAndClamp : Prop :=
  ∀ (cfg : Cfg) (dn w : Word),
    (bexp w = 255 → frac w ≠ 0 → f2p cfg dn w = cfg.cNan.toInt) ∧
    (w = 0x7F800000#32 → f2p cfg dn w = cfg.cPinf.toInt) ∧
    (w = 0xFF800000#32 → f2p cfg dn w = cfg.cNinf.toInt) ∧
    (isFinite w = true → 32767 ≤ val w * 32768 → f2p cfg dn w = 32767) ∧
    (isFinite w = true → val w * 32768 ≤ -32768 → f2p cfg dn w = -32768)

/-- The infinities and NaNs under the three named profiles of 00 R7 (40 R54, R55; 43 R80). -/
def Obligations.ProfilesGiveTheirConstants : Prop :=
  ∀ (cfg : Cfg) (dn w : Word), bexp w = 255 → frac w ≠ 0 →
    (f2p (cfg.withProfile .sat) dn 0x7F800000#32 = 32767 ∧ f2p (cfg.withProfile .sat) dn 0xFF800000#32 = -32768 ∧
      f2p (cfg.withProfile .sat) dn w = 0) ∧
    (f2p (cfg.withProfile .x86Like) dn 0x7F800000#32 = -32768 ∧
      f2p (cfg.withProfile .x86Like) dn 0xFF800000#32 = -32768 ∧ f2p (cfg.withProfile .x86Like) dn w = 32767) ∧
    (f2p (cfg.withProfile .arm64Like) dn 0x7F800000#32 = 0 ∧
      f2p (cfg.withProfile .arm64Like) dn 0xFF800000#32 = 0 ∧ f2p (cfg.withProfile .arm64Like) dn w = 0)

/-- 40 R57. In range and away from a tie the result is the integer nearest to the exact scaled value, which is its
`rhaz` and its `rne`, whatever the configuration and the mode. -/
def Obligations.RoundsToNearestAwayFromTies : Prop :=
  ∀ (cfg : Cfg) (dn w : Word), isFinite w = true → -32768 ≤ val w * 32768 → val w * 32768 ≤ 32767 →
    (∀ n : Int, val w * 32768 ≠ n + 1 / 2) →
    ((f2p cfg dn w : Int) : Rat) - val w * 32768 < 1 / 2 ∧ val w * 32768 - ((f2p cfg dn w : Int) : Rat) < 1 / 2 ∧
    f2p cfg dn w = rhaz (val w * 32768) ∧ f2p cfg dn w = rne (val w * 32768)

/-- 40 R58, 43 R79. At a tie `s = n + 1/2` in range: with `TIE = AWAY`, and in every reference instance, the neighbour
farther from zero (`n + 1` for `s > 0`, `n` for `s < 0`); with `TIE = EVEN` the even one of `n` and `n + 1`. -/
def Obligations.TiesFollowThePolicy : Prop :=
  ∀ (cfg : Cfg) (dn w : Word) (n : Int), isFinite w = true → val w * 32768 = n + 1 / 2 →
    -32768 ≤ val w * 32768 → val w * 32768 ≤ 32767 →
    (cfg.variant = .reference ∨ cfg.tie = .away → f2p cfg dn w = if 0 ≤ n then n + 1 else n) ∧
    (cfg.variant = .vectorized → cfg.tie = .even → f2p cfg dn w = if n % 2 = 0 then n else n + 1)

/-- 40 R59, R60: a subnormal sample, either zero, and every sample of magnitude below `2^-16` gives 0, whatever
`DNCTL` holds. -/
def Obligations.TinySamplesGiveZero : Prop :=
  ∀ (cfg : Cfg) (dn w : Word), isFinite w = true →
    (bexp w = 0 → f2p cfg dn w = 0) ∧
    (-(1 / 65536) < val w → val w < 1 / 65536 → f2p cfg dn w = 0)

/-- 40 R62: every one of the `2^32` patterns has a result in -32768..32767, and the results of finite samples are
monotonic in their value. -/
def Obligations.F2pIsBoundedAndMonotonic : Prop :=
  ∀ (cfg : Cfg) (dn w v : Word),
    (-32768 ≤ f2p cfg dn w ∧ f2p cfg dn w ≤ 32767) ∧
    (isFinite w = true → isFinite v = true → val w ≤ val v → f2p cfg dn w ≤ f2p cfg dn v)

/-- 43 R78: on finite samples that are no tie, any two configurations agree, under any modes. -/
def Obligations.ConfigurationsAgreeOffTies : Prop :=
  ∀ (k l : Cfg) (dn dn' w : Word), isFinite w = true → (∀ n : Int, val w * 32768 ≠ n + 1 / 2) →
    f2p k dn w = f2p l dn' w

/-- 43 R83. No conversion depends on `DNCTL`: with any other contents of the registers, `ILV` and `DILV` give the same
outcome, the registers aside. -/
def Obligations.DenormalModeChangesNoOutput : Prop :=
  ∀ (x : Transfer) (s : State) (d : List Word),
    (∀ s', exec (.ilv x) s = .next s' → exec (.ilv x) { s with dnctl := d } = .next { s' with dnctl := d }) ∧
    (∀ s', exec (.dilv x) s = .next s' → exec (.dilv x) { s with dnctl := d } = .next { s' with dnctl := d })

/-! ### DILV (41_deinterleave.md) -/

/-- Before any access `DILV` makes its checks in the order of 41 R64 and raises the first that fails, which sets
`FAULTED` and changes nothing else; where none fails it raises nothing. Ownership is that of every element, as 20 R22,
60 R86 and D10 have it, where 41 R64 names the whole ranges (log entry 9). -/
def Obligations.DilvRaisesTheFirstFailingCheck : Prop :=
  ∀ (x : Transfer) (s : State), Issued x s →
    (¬CountsPositive x → exec (.dilv x) s = .next (s.setFaulted .zeroCount)) ∧
    (CountsPositive x → ¬NoNull x → exec (.dilv x) s = .next (s.setFaulted .nullBuffer)) ∧
    (CountsPositive x → NoNull x → ¬Aligned x → exec (.dilv x) s = .next (s.setFaulted .misaligned)) ∧
    (CountsPositive x → NoNull x → Aligned x → ¬BuffersOwned x s.alloc →
      exec (.dilv x) s = .next (s.setFaulted .capacity)) ∧
    (BasicContract x s.alloc → ¬(OutputApart x ∧ PlanesApart x) →
      exec (.dilv x) s = .next (s.setFaulted .overlap)) ∧
    (BasicContract x s.alloc → OutputApart x → PlanesApart x → ∃ s', exec (.dilv x) s = .next s' ∧ s'.faulted = none)

/-- With its checks passed `DILV` completes with status `OK` (41 R66); every output sample is `p2f` of the input sample
of the same channel and frame, as that was before the command; the PCM buffer and every other byte outside the `F`
elements of the planes, and `DNCTL`, are unchanged. The checks are those of 41 R64, but that ownership is that of every
element, as 20 R22, 60 R86 and D10 have it, where 41 R64 names the whole ranges (log entry 9); the count of completed
commands is the model's own (log entry 3). -/
def Obligations.DilvConvertsEverySample : Prop :=
  ∀ (x : Transfer) (s : State), DilvReady x s →
    ∃ s', exec (.dilv x) s = .next s' ∧ s'.faulted = none ∧
      (∀ f c, f < frameCount x → c < chCount x →
        memRead s'.mem ((x.planes.getD c 0#32).toNat + 4 * f) 4 =
          (p2f (BitVec.ofNat 16 (memRead s.mem (x.pcm.toNat + 2 * (f * chCount x + c)) 2))).toNat) ∧
      (∀ a, (∀ b ∈ x.planes, a < b.toNat ∨ b.toNat + 4 * frameCount x ≤ a) → s'.mem.read a = s.mem.read a) ∧
      (∀ f c, f < frameCount x → c < chCount x →
        memRead s'.mem (x.pcm.toNat + 2 * (f * chCount x + c)) 2 =
          memRead s.mem (x.pcm.toNat + 2 * (f * chCount x + c)) 2) ∧
      s'.dnctl = s.dnctl ∧ s'.portWords s.cur = [] ∧ s'.completedOf s.cur = s.completedOf s.cur + 1

/-- The frame of `DILV`, as that of `ILV`; every byte outside the elements `0` to `F - 1` of the planes is as before
(41 R63, 20 R28, 60 R87). -/
def Obligations.DilvFrame : Prop :=
  ∀ (x : Transfer) (s s' : State), exec (.dilv x) s = .next s' →
    s'.cfg = s.cfg ∧ s'.alloc = s.alloc ∧ s'.dnctl = s.dnctl ∧ s'.inbox = s.inbox ∧ s'.cur = s.cur ∧
    s'.fresh = s.fresh ∧
    (∀ u, u ≠ s.cur → s'.portWords u = s.portWords u ∧ s'.completedOf u = s.completedOf u) ∧
    (∀ a, (∀ c, c < chCount x → a < planeAddr x c 0 ∨ planeAddr x c 0 + 4 * frameCount x ≤ a) →
      s'.mem.read a = s.mem.read a) ∧
    (s'.faulted ≠ none → s'.contexts = s.contexts ∧ ∀ a, s'.mem.read a = s.mem.read a)

/-- 20 R30: the order in which `DILV` treats its elements cannot be observed. Its checks take ownership by element (log
entry 9). -/
def Obligations.DilvElementOrderIsUnobservable : Prop :=
  ∀ (x : Transfer) (s : State) (order : List (Nat × Nat)),
    DilvReady x s → Memory.wf s.mem = true → order.Perm (elements x) →
    exec (.dilv x) s = .next (s.setMem (dilvLoop x order s.mem)).complete

/-- 41 R67: the conversion is exact for all 65536 patterns, and strictly increasing. -/
def Obligations.P2fIsExactAndIncreasing : Prop :=
  ∀ (h k : Half), isFinite (p2f h) = true ∧ val (p2f h) = (h.toInt : Rat) / 32768 ∧
    (h.toInt < k.toInt → val (p2f h) < val (p2f k))

/-- 41 R68, R69: every result is +0, for the pattern 0 only, or a normal number of magnitude `2^-15` to 1, and its low
8 fraction bits are 0. -/
def Obligations.P2fGivesZeroOrNormal : Prop :=
  ∀ (h : Half), (p2f h = 0#32 ↔ h = 0#16) ∧ (p2f h).extractLsb' 0 8 = 0#8 ∧
    (h ≠ 0#16 → isNormal (p2f h) = true ∧
      ((1 / 32768 ≤ val (p2f h) ∧ val (p2f h) ≤ 1) ∨ (-1 ≤ val (p2f h) ∧ val (p2f h) ≤ -(1 / 32768))))

/-- 43 R77: `DILV` reads no configuration field: two instances give the same outcome, `CFG` aside. -/
def Obligations.DilvAgreesUnderEveryConfiguration : Prop :=
  ∀ (x : Transfer) (s s' : State) (k : Cfg), exec (.dilv x) s = .next s' →
    exec (.dilv x) { s with cfg := k } = .next { s' with cfg := k }

/-! ### The round trip (43 R81) -/

/-- 43 R81. For every 16-bit pattern and under every configuration, `f2p(p2f(h), t) = sint16(h)`; the other direction
gives a sample back only where it is in the image of `p2f`. -/
def Obligations.RoundTripOfASample : Prop :=
  ∀ (cfg : Cfg) (dn : Word), (∀ h : Half, f2p cfg dn (p2f h) = h.toInt) ∧
    ∀ w : Word, p2f (enc16 (f2p cfg dn w)) = w ↔ ∃ h, w = p2f h

/-- 43 R81 through memory: `DILV` into some planes and then `ILV` from the same planes into another PCM buffer, of the
same counts, copies every sample of the first PCM buffer to the second, under every configuration. The checks of both
take ownership by element (log entry 9). -/
def Obligations.DilvThenIlvCopiesThePcmBuffer : Prop :=
  ∀ (x y : Transfer) (s : State), DilvReady x s → IlvReady y s →
    y.ch = x.ch → y.frames = x.frames → y.planes = x.planes →
    ∃ s' s'', exec (.dilv x) s = .next s' ∧ exec (.ilv y) s' = .next s'' ∧
      ∀ f c, f < frameCount x → c < chCount x →
        memRead s''.mem (pcmAddr y f c) 2 = memRead s.mem (pcmAddr x f c) 2

/-! ### DNEN (42_denormal_control.md) -/

/-- 42 R72, R73 and 10 R11. `DNEN` completes with status `OK`. Where the mode is supported it sets both fields of
`DNCTL[t]` of the issuing context: of that register alone under `PER_CONTEXT`, of the one register that every context
sees under `SHARED`. Where it is not supported no register changes. Memory, `FAULTED` and everything else stay (42
R70); the port becomes idle (30 R35). The count of completed commands is the model's own (10 R13, log entry 3). -/
def Obligations.DnenSetsBothModes : Prop :=
  ∀ (s : State), Shape s → s.faulted = none →
    ∃ s', exec .dnen s = .next s' ∧
      (s.cfg.dnSupported = true → s'.dnctlOf s.cur = 3#32 ∧ ftz (s'.dnctlOf s.cur) = true ∧
        daz (s'.dnctlOf s.cur) = true) ∧
      (s.cfg.dnSupported = true → s.cfg.dnScope = .shared → ∀ u, s'.dnctlOf u = 3#32) ∧
      (s.cfg.dnScope = .perContext → ∀ u, u ≠ s.cur → s'.dnctlOf u = s.dnctlOf u) ∧
      (s.cfg.dnSupported = false → s'.dnctl = s.dnctl) ∧
      s'.mem = s.mem ∧ s'.faulted = none ∧ s'.cfg = s.cfg ∧ s'.alloc = s.alloc ∧ s'.inbox = s.inbox ∧
      s'.cur = s.cur ∧ s'.fresh = s.fresh ∧
      s'.portWords s.cur = [] ∧ s'.completedOf s.cur = s.completedOf s.cur + 1 ∧
      ∀ u, u ≠ s.cur → s'.portWords u = s.portWords u ∧ s'.completedOf u = s.completedOf u

/-- 42 R74: `DNEN` is idempotent; issued again it leaves every register as it is. -/
def Obligations.DnenIsIdempotent : Prop :=
  ∀ (s s' : State), exec .dnen s = .next s' →
    ∃ s'', exec .dnen s' = .next s'' ∧ s''.dnctl = s'.dnctl ∧ s''.mem = s.mem

/-! ### Creating and destroying buffers (70 R104) -/

/-- 70 R104: creating a buffer adds its span to `ALLOC` and changes nothing else. Destroying one that a command in
execution uses is a `ContractBreach(Race)`; by the model's choice that is any span of `ALLOC` that meets one of its
buffers, and the span stays (log entry 8), while every byte outside the buffers of commands in execution stays too (log
entry 5). Destroying any other span removes it from `ALLOC` and changes nothing else (log entry 19). -/
def Obligations.HostCreatesAndDestroysBuffers : Prop :=
  ∀ (s : State) (sp : Span) (acts : List HostAction), s.faulted = none →
    (s.inbox = .create sp :: acts →
      ∃ s', step s = .next s' ∧ (∀ q, q ∈ s'.alloc ↔ q = sp ∨ q ∈ s.alloc) ∧
        s' = (s.setInbox acts).setAlloc s'.alloc) ∧
    (s.inbox = .destroy sp :: acts →
      (sp ∈ s.alloc → (∃ a, sp.base ≤ a ∧ a < sp.base + sp.len ∧ InBufferOfRunning bufferSpans s a) →
        ∃ s', step s = .next s' ∧ s'.faulted = some .race ∧ s'.dnctl = s.dnctl ∧ s'.contexts = s.contexts ∧
          s'.alloc = s.alloc ∧ ∀ p, ¬InBufferOfRunning bufferSpans s p → s'.mem.read p = s.mem.read p) ∧
      ((sp ∉ s.alloc ∨ ∀ a, sp.base ≤ a → a < sp.base + sp.len → ¬InBufferOfRunning bufferSpans s a) →
        ∃ s', step s = .next s' ∧ (∀ q, q ∈ s'.alloc ↔ q ∈ s.alloc ∧ q ≠ sp) ∧
          s' = (s.setInbox acts).setAlloc s'.alloc))
end

