-- ==== Sys2Proof/Laws/Memory.lean ====
section
/-! SUPPORT. The laws of the memory operations: read after write, the canonical form and its extensionality, and the
little-endian accesses of 20 R24 and R25. -/

namespace Sys2Proof.Machine

/-! ### One byte -/

theorem Memory.read_filter_same (m : Memory) (a : Nat) :
    Memory.read (m.filter (fun c => c.1 != a)) a = unlistedByte := by
  induction m with
  | nil => rfl
  | cons c m ih =>
    by_cases h : c.1 = a
    · simpa [List.filter_cons, h] using ih
    · simpa [List.filter_cons, h, Memory.read] using ih

theorem Memory.read_filter_other (m : Memory) {a x : Nat} (h : x ≠ a) :
    Memory.read (m.filter (fun c => c.1 != a)) x = m.read x := by
  induction m with
  | nil => rfl
  | cons c m ih =>
    by_cases hc : c.1 = a
    · have : c.1 ≠ x := fun e => h (e ▸ hc)
      simpa [List.filter_cons, hc, Memory.read, Ne.symm h] using ih
    · by_cases hx : c.1 = x
      · simp [Memory.read, hx, h]
      · simpa [List.filter_cons, hc, Memory.read, hx] using ih

theorem Memory.read_insert_other (m : Memory) {a x : Nat} (b : Byte) (h : x ≠ a) :
    Memory.read (Memory.insert a b m) x = m.read x := by
  induction m with
  | nil => simp [Memory.insert, Memory.read, Ne.symm h]
  | cons c m ih =>
    unfold Memory.insert
    split
    · simp [Memory.read, Ne.symm h]
    · simp [Memory.read, ih]

theorem Memory.read_insert_same (m : Memory) (a : Nat) (b : Byte) (h : ∀ c ∈ m, c.1 ≠ a) :
    Memory.read (Memory.insert a b m) a = b := by
  induction m with
  | nil => simp [Memory.insert, Memory.read]
  | cons c m ih =>
    unfold Memory.insert
    split
    · simp [Memory.read]
    · simp [Memory.read, h c (by simp), ih fun d hd => h d (by simp [hd])]

/-- A byte reads as what was last written to it. -/
@[simp] theorem Memory.read_write_same (m : Memory) (a : Nat) (b : Byte) : (m.write a b).read a = b := by
  unfold Memory.write
  split
  · next h => rw [Memory.read_filter_same, h]
  · exact Memory.read_insert_same _ _ _ (by intro c hc; simpa using (List.mem_filter.mp hc).2)

/-- A write leaves every other byte alone. -/
theorem Memory.read_write_other (m : Memory) {a x : Nat} (b : Byte) (h : x ≠ a) :
    (m.write a b).read x = m.read x := by
  unfold Memory.write
  split
  · exact Memory.read_filter_other m h
  · rw [Memory.read_insert_other _ _ h, Memory.read_filter_other m h]

theorem Memory.read_write (m : Memory) (a x : Nat) (b : Byte) :
    (m.write a b).read x = if x = a then b else m.read x := by
  split
  · next h => subst h; exact Memory.read_write_same m x b
  · next h => exact Memory.read_write_other m b h

/-! ### The canonical form -/

/-- The canonical form in terms of the list: addresses strictly rising, each below `2^32`, no cell listed for nothing. -/
theorem Memory.wf_iff (m : Memory) :
    m.wf = true ↔ m.Pairwise (fun c d => c.1 < d.1) ∧ ∀ c ∈ m, c.1 < memSize ∧ c.2 ≠ unlistedByte := by
  induction m with
  | nil => simp [Memory.wf]
  | cons c m ih =>
    cases m with
    | nil => simp [Memory.wf]
    | cons d m =>
      simp only [Memory.wf, Bool.and_eq_true, decide_eq_true_eq, bne_iff_ne, ne_eq, ih]
      constructor
      · rintro ⟨⟨h1, h2⟩, hp, hall⟩
        have hd := hall d (by simp)
        refine ⟨List.pairwise_cons.mpr ⟨?_, hp⟩, ?_⟩
        · intro e he
          rcases List.mem_cons.mp he with rfl | he
          · exact h1
          · exact lt_trans h1 ((List.pairwise_cons.mp hp).1 e he)
        · intro e he
          rcases List.mem_cons.mp he with rfl | he
          · exact ⟨lt_trans h1 hd.1, h2⟩
          · exact hall e he
      · rintro ⟨hp, hall⟩
        have hp' := List.pairwise_cons.mp hp
        exact ⟨⟨hp'.1 d (by simp), (hall c (by simp)).2⟩, hp'.2, fun e he => hall e (by simp [he])⟩

@[simp] theorem Memory.wf_nil : Memory.wf [] = true := rfl

theorem Memory.mem_insert {m : Memory} {a : Nat} {b : Byte} {c : Host.Cell} :
    c ∈ Memory.insert a b m ↔ c = (a, b) ∨ c ∈ m := by
  induction m with
  | nil => simp [Memory.insert]
  | cons d m ih =>
    unfold Memory.insert
    split
    · simp
    · simp only [List.mem_cons, ih]
      tauto

theorem Memory.pairwise_insert {m : Memory} {a : Nat} {b : Byte}
    (hp : m.Pairwise (fun c d => c.1 < d.1)) (hn : ∀ c ∈ m, c.1 ≠ a) :
    (Memory.insert a b m).Pairwise (fun c d => c.1 < d.1) := by
  induction m with
  | nil => simp [Memory.insert]
  | cons d m ih =>
    have hp' := List.pairwise_cons.mp hp
    unfold Memory.insert
    split
    · next h =>
      refine List.pairwise_cons.mpr ⟨?_, hp⟩
      intro e he
      rcases List.mem_cons.mp he with rfl | he
      · exact h
      · exact lt_trans h (hp'.1 e he)
    · next h =>
      refine List.pairwise_cons.mpr ⟨?_, ih hp'.2 fun c hc => hn c (by simp [hc])⟩
      intro e he
      rcases Memory.mem_insert.mp he with rfl | he
      · have := hn d (by simp)
        simp only; omega
      · exact hp'.1 e he

/-- Every byte write inside the address space keeps the canonical form. -/
theorem Memory.wf_write {m : Memory} {a : Nat} (b : Byte) (hm : m.wf = true) (ha : a < memSize) :
    (m.write a b).wf = true := by
  rw [Memory.wf_iff] at hm ⊢
  have hf : (m.filter (fun c => c.1 != a)).Pairwise (fun c d => c.1 < d.1) := hm.1.filter _
  have hn : ∀ c ∈ m.filter (fun c => c.1 != a), c.1 ≠ a := by
    intro c hc; simpa using (List.mem_filter.mp hc).2
  unfold Memory.write
  split
  · exact ⟨hf, fun c hc => hm.2 c (List.mem_filter.mp hc).1⟩
  · next hb =>
    refine ⟨Memory.pairwise_insert hf hn, ?_⟩
    intro c hc
    rcases Memory.mem_insert.mp hc with rfl | hc
    · exact ⟨ha, hb⟩
    · exact hm.2 c (List.mem_filter.mp hc).1

theorem Memory.read_of_lt_head {m : Memory} {x : Nat} (h : ∀ c ∈ m, x < c.1) : m.read x = unlistedByte := by
  induction m with
  | nil => rfl
  | cons c m ih =>
    have := h c (by simp)
    simp [Memory.read, Nat.ne_of_gt this, ih fun d hd => h d (by simp [hd])]

/-- Two memories in canonical form that read alike everywhere are the same list. -/
theorem Memory.ext_of_wf {m n : Memory} (hm : m.wf = true) (hn : n.wf = true)
    (h : ∀ x, m.read x = n.read x) : m = n := by
  rw [Memory.wf_iff] at hm hn
  induction m generalizing n with
  | nil =>
    cases n with
    | nil => rfl
    | cons d n =>
      have := h d.1
      simp only [Memory.read, if_pos] at this
      exact absurd this.symm (hn.2 d (by simp)).2
  | cons c m ih =>
    have hpm := List.pairwise_cons.mp hm.1
    cases n with
    | nil =>
      have := h c.1
      simp only [Memory.read, if_pos] at this
      exact absurd this (hm.2 c (by simp)).2
    | cons d n =>
      have hpn := List.pairwise_cons.mp hn.1
      have hc := (hm.2 c (by simp)).2
      have hd := (hn.2 d (by simp)).2
      have key : c.1 = d.1 := by
        rcases Nat.lt_trichotomy c.1 d.1 with hlt | heq | hgt
        · have hr := h c.1
          rw [Memory.read_of_lt_head (m := d :: n) (by
            intro e he
            rcases List.mem_cons.mp he with rfl | he
            · exact hlt
            · exact lt_trans hlt (hpn.1 e he))] at hr
          simp [Memory.read] at hr
          exact absurd hr hc
        · exact heq
        · have hr := h d.1
          rw [Memory.read_of_lt_head (m := c :: m) (by
            intro e he
            rcases List.mem_cons.mp he with rfl | he
            · exact hgt
            · exact lt_trans hgt (hpm.1 e he))] at hr
          simp [Memory.read] at hr
          exact absurd hr.symm hd
      have hv : c.2 = d.2 := by
        have hr := h c.1
        simpa [Memory.read, key] using hr
      have hcd : c = d := Prod.ext key hv
      subst hcd
      congr 1
      refine ih ⟨hpm.2, fun e he => hm.2 e (by simp [he])⟩ ⟨hpn.2, fun e he => hn.2 e (by simp [he])⟩ ?_
      intro x
      by_cases hx : x ≤ c.1
      · rw [Memory.read_of_lt_head fun e he => lt_of_le_of_lt hx (hpm.1 e he),
          Memory.read_of_lt_head fun e he => lt_of_le_of_lt hx (hpn.1 e he)]
      · have hr := h x
        have hne : c.1 ≠ x := by omega
        simpa [Memory.read, hne] using hr

/-! ### Little-endian accesses (20 R24, R25) -/

theorem memRead_congr {m m' : Memory} {addr n : Nat}
    (h : ∀ x, addr ≤ x → x < addr + n → m.read x = m'.read x) : memRead m addr n = memRead m' addr n := by
  induction n generalizing addr with
  | zero => rfl
  | succ n ih =>
    rw [memRead, memRead, h addr (le_refl _) (by omega), ih fun x h1 h2 => h x (by omega) (by omega)]

/-- `MemRead` answers an unsigned integer of `8n` bits. -/
theorem memRead_lt (m : Memory) (addr n : Nat) : memRead m addr n < 256 ^ n := by
  induction n generalizing addr with
  | zero => simp [memRead]
  | succ n ih =>
    have h1 := (m.read addr).isLt
    have h2 := ih (addr + 1)
    rw [memRead, pow_succ]
    omega

/-- A `MemWrite` changes no byte outside the `n` bytes from `addr` (20 R25). -/
theorem memWrite_read_other (m : Memory) (addr n v x : Nat) (h : x < addr ∨ addr + n ≤ x) :
    (memWrite m addr n v).read x = m.read x := by
  induction n generalizing m addr v with
  | zero => rfl
  | succ n ih =>
    rw [memWrite, ih _ _ _ (by omega), Memory.read_write_other _ _ (by omega)]

/-- Byte `i` of the `n` bytes from `addr` reads as byte `i` of the value after a `MemWrite` (20 R25). -/
theorem memWrite_read_inside (m : Memory) (addr n v i : Nat) (h : i < n) :
    (memWrite m addr n v).read (addr + i) = BitVec.ofNat 8 (v / 256 ^ i) := by
  induction n generalizing m addr v i with
  | zero => omega
  | succ n ih =>
    rw [memWrite]
    cases i with
    | zero => simp [memWrite_read_other]
    | succ i =>
      have := ih (m.write addr (BitVec.ofNat 8 v)) (addr + 1) (v / 256) i (by omega)
      rw [show addr + (i + 1) = addr + 1 + i by omega, this, Nat.div_div_eq_div_mul, pow_succ, Nat.mul_comm]

/-- A `MemRead` of what a `MemWrite` of the same width stored (20 R24, R25). -/
theorem memRead_memWrite_same (m : Memory) (addr n v : Nat) :
    memRead (memWrite m addr n v) addr n = v % 256 ^ n := by
  induction n generalizing m addr v with
  | zero => simp [memRead, Nat.mod_one]
  | succ n ih =>
    have h8 : (BitVec.ofNat 8 v).toNat = v % 256 := by simp
    rw [memRead, memWrite, ih, memWrite_read_other _ _ _ _ _ (by omega), Memory.read_write_same, h8,
      pow_succ' 256 n, Nat.mod_mul]

/-- A `MemRead` clear of the bytes that a `MemWrite` stored. -/
theorem memRead_memWrite_apart (m : Memory) (addr n v a k : Nat) (h : a + k ≤ addr ∨ addr + n ≤ a) :
    memRead (memWrite m addr n v) a k = memRead m a k :=
  memRead_congr fun x h1 h2 => memWrite_read_other m addr n v x (by omega)

/-- A `MemWrite` inside the address space keeps the canonical form. -/
theorem Memory.wf_memWrite {m : Memory} {addr n : Nat} (v : Nat) (hm : m.wf = true) (h : addr + n ≤ memSize) :
    (memWrite m addr n v).wf = true := by
  induction n generalizing m addr v with
  | zero => exact hm
  | succ n ih => exact ih _ (Memory.wf_write _ hm (by omega)) (by omega)

/-! ### Free values (60 R87) -/

theorem scramble_read_other (as : List Nat) (n : Nat) (m : Memory) {x : Nat} (h : x ∉ as) :
    (scramble as n m).read x = m.read x := by
  induction as generalizing n m with
  | nil => rfl
  | cons a as ih =>
    rw [scramble, ih _ _ (fun hx => h (by simp [hx])), Memory.read_write_other _ _ (fun e => h (by simp [e]))]

theorem Memory.wf_scramble {as : List Nat} {m : Memory} (n : Nat) (hm : m.wf = true) (h : ∀ a ∈ as, a < memSize) :
    (scramble as n m).wf = true := by
  induction as generalizing n m with
  | nil => exact hm
  | cons a as ih => exact ih _ (Memory.wf_write _ hm (h a (by simp))) fun x hx => h x (by simp [hx])

end Sys2Proof.Machine
end

