-- ==== Sys2Proof/Laws/Loop.lean ====
section
/-! SUPPORT. The laws of a loop of stores, from which those of the two converters follow: each element stores `n` bytes
at an address of its own, a value that no store of the loop disturbs. -/

namespace Sys2Proof.Machine

section
variable {α : Type} (addr : α → Nat) (n : Nat) (value : Memory → α → Nat)

/-- A loop of stores over a list of elements. -/
def storeLoop (l : List α) (m : Memory) : Memory := l.foldl (fun m e => memWrite m (addr e) n (value m e)) m

/-- The bytes that the elements of a list store to. -/
def StoredBy (l : List α) (x : Nat) : Prop := ∃ e ∈ l, addr e ≤ x ∧ x < addr e + n

/-- Two memories that read alike but for the bytes that the elements of a list store to. -/
def AgreeOff (l : List α) (m m' : Memory) : Prop := ∀ x, ¬StoredBy addr n l x → m.read x = m'.read x

/-- No store of the loop disturbs a value that the loop stores. -/
def Undisturbed (l : List α) : Prop :=
  ∀ m m', AgreeOff addr n l m m' → ∀ e ∈ l, value m e = value m' e

/-- Different elements store to different bytes. -/
def StoresApart (l : List α) : Prop :=
  ∀ e ∈ l, ∀ e' ∈ l, e ≠ e' → addr e + n ≤ addr e' ∨ addr e' + n ≤ addr e

variable {addr n value}

theorem memWrite_agreeOff {l : List α} {e : α} (he : e ∈ l) (m : Memory) (v : Nat) :
    AgreeOff addr n l (memWrite m (addr e) n v) m := by
  intro x hx
  refine memWrite_read_other _ _ _ _ _ ?_
  by_contra h
  exact hx ⟨e, he, by omega, by omega⟩

/-- A loop of stores leaves every byte alone that no element stores to. -/
theorem storeLoop_read_other (l : List α) (m : Memory) {x : Nat} (h : ¬StoredBy addr n l x) :
    (storeLoop addr n value l m).read x = m.read x := by
  induction l generalizing m with
  | nil => rfl
  | cons e l ih =>
    have hl : ¬StoredBy addr n l x := fun ⟨d, hd, hx⟩ => h ⟨d, by simp [hd], hx⟩
    have := ih (memWrite m (addr e) n (value m e)) hl
    exact this.trans (memWrite_agreeOff (by simp) m _ x h)

/-- After a loop of stores each element's bytes hold the value that the element had before the loop. -/
theorem storeLoop_read_inside {L : List α} (hv : Undisturbed addr n value L) (ha : StoresApart addr n L)
    (m₀ : Memory) {l : List α} (hl : l ⊆ L) (hn : l.Nodup) (m : Memory) (hm : AgreeOff addr n L m m₀)
    {e : α} (he : e ∈ l) {i : Nat} (hi : i < n) :
    (storeLoop addr n value l m).read (addr e + i) = BitVec.ofNat 8 (value m₀ e / 256 ^ i) := by
  induction l generalizing m with
  | nil => simp at he
  | cons d l ih =>
    have hd : d ∈ L := hl (by simp)
    have hn' := List.nodup_cons.mp hn
    rcases List.mem_cons.mp he with rfl | he
    · have hnot : ¬StoredBy addr n l (addr e + i) := by
        rintro ⟨d', hd', h1, h2⟩
        have hne : e ≠ d' := fun h => hn'.1 (h ▸ hd')
        have := ha e hd d' (hl (by simp [hd'])) hne
        omega
      have h1 := storeLoop_read_other (value := value) l (memWrite m (addr e) n (value m e)) hnot
      refine Eq.trans h1 ?_
      rw [memWrite_read_inside _ _ _ _ _ hi, hv m m₀ hm e hd]
    · refine ih (fun x hx => hl (by simp [hx])) hn'.2 (memWrite m (addr d) n (value m d)) ?_ he
      intro x hx
      exact (memWrite_agreeOff hd m _ x hx).trans (hm x hx)

/-- The value an element stores, read back by an access of the same width. -/
theorem storeLoop_memRead {l : List α} (hv : Undisturbed addr n value l) (ha : StoresApart addr n l) (hn : l.Nodup)
    (m : Memory) {e : α} (he : e ∈ l) :
    memRead (storeLoop addr n value l m) (addr e) n = value m e % 256 ^ n := by
  rw [← memRead_memWrite_same m (addr e) n (value m e)]
  refine memRead_congr fun x h1 h2 => ?_
  obtain ⟨i, rfl⟩ := Nat.exists_eq_add_of_le h1
  rw [storeLoop_read_inside hv ha m (List.Subset.refl l) hn m (fun _ _ => rfl) he (by omega),
    memWrite_read_inside _ _ _ _ _ (by omega)]

/-- The order of the elements cannot be seen in any byte. -/
theorem storeLoop_read_perm {l l' : List α} (hp : l'.Perm l) (hv : Undisturbed addr n value l)
    (ha : StoresApart addr n l) (hn : l.Nodup) (m : Memory) (x : Nat) :
    (storeLoop addr n value l' m).read x = (storeLoop addr n value l m).read x := by
  by_cases hx : StoredBy addr n l x
  · obtain ⟨e, he, h1, h2⟩ := hx
    obtain ⟨i, rfl⟩ := Nat.exists_eq_add_of_le h1
    rw [storeLoop_read_inside hv ha m (List.Subset.refl l) hn m (fun _ _ => rfl) he (by omega),
      storeLoop_read_inside hv ha m (fun e he => hp.subset he) (hp.nodup_iff.mpr hn) m (fun _ _ => rfl)
        (hp.mem_iff.mpr he) (by omega)]
  · have hx' : ¬StoredBy addr n l' x := fun ⟨e, he, h⟩ => hx ⟨e, hp.mem_iff.mp he, h⟩
    rw [storeLoop_read_other l m hx, storeLoop_read_other l' m hx']

/-- A loop of stores inside the address space keeps the canonical form. -/
theorem Memory.wf_storeLoop {l : List α} {m : Memory} (hm : m.wf = true) (h : ∀ e ∈ l, addr e + n ≤ memSize) :
    (storeLoop addr n value l m).wf = true := by
  induction l generalizing m with
  | nil => exact hm
  | cons e l ih =>
    exact ih (Memory.wf_memWrite _ hm (h e (by simp))) fun d hd => h d (by simp [hd])

end

end Sys2Proof.Machine
end

