-- ==== Sys2Proof/Laws/State.lean ====
section
/-! SUPPORT. What each named update of the state does to each field, one lemma per field per update, and the views of
the state (`portWords`, `completedOf`, `dnctlOf`) after the updates. -/

namespace Sys2Proof.Machine

/-! ### `State.setMem` -/

@[simp] theorem State.cfg_setMem (s : State) (m : Memory) : (s.setMem m).cfg = s.cfg := rfl
@[simp] theorem State.alloc_setMem (s : State) (m : Memory) : (s.setMem m).alloc = s.alloc := rfl
@[simp] theorem State.mem_setMem (s : State) (m : Memory) : (s.setMem m).mem = m := rfl
@[simp] theorem State.dnctl_setMem (s : State) (m : Memory) : (s.setMem m).dnctl = s.dnctl := rfl
@[simp] theorem State.faulted_setMem (s : State) (m : Memory) : (s.setMem m).faulted = s.faulted := rfl
@[simp] theorem State.contexts_setMem (s : State) (m : Memory) : (s.setMem m).contexts = s.contexts := rfl
@[simp] theorem State.cur_setMem (s : State) (m : Memory) : (s.setMem m).cur = s.cur := rfl
@[simp] theorem State.inbox_setMem (s : State) (m : Memory) : (s.setMem m).inbox = s.inbox := rfl
@[simp] theorem State.fresh_setMem (s : State) (m : Memory) : (s.setMem m).fresh = s.fresh := rfl

/-! ### `State.setAlloc` -/

@[simp] theorem State.cfg_setAlloc (s : State) (al : List Span) : (s.setAlloc al).cfg = s.cfg := rfl
@[simp] theorem State.alloc_setAlloc (s : State) (al : List Span) : (s.setAlloc al).alloc = al := rfl
@[simp] theorem State.mem_setAlloc (s : State) (al : List Span) : (s.setAlloc al).mem = s.mem := rfl
@[simp] theorem State.dnctl_setAlloc (s : State) (al : List Span) : (s.setAlloc al).dnctl = s.dnctl := rfl
@[simp] theorem State.faulted_setAlloc (s : State) (al : List Span) : (s.setAlloc al).faulted = s.faulted := rfl
@[simp] theorem State.contexts_setAlloc (s : State) (al : List Span) : (s.setAlloc al).contexts = s.contexts := rfl
@[simp] theorem State.cur_setAlloc (s : State) (al : List Span) : (s.setAlloc al).cur = s.cur := rfl
@[simp] theorem State.inbox_setAlloc (s : State) (al : List Span) : (s.setAlloc al).inbox = s.inbox := rfl
@[simp] theorem State.fresh_setAlloc (s : State) (al : List Span) : (s.setAlloc al).fresh = s.fresh := rfl

/-! ### `State.setCur` -/

@[simp] theorem State.cfg_setCur (s : State) (t : Nat) : (s.setCur t).cfg = s.cfg := rfl
@[simp] theorem State.alloc_setCur (s : State) (t : Nat) : (s.setCur t).alloc = s.alloc := rfl
@[simp] theorem State.mem_setCur (s : State) (t : Nat) : (s.setCur t).mem = s.mem := rfl
@[simp] theorem State.dnctl_setCur (s : State) (t : Nat) : (s.setCur t).dnctl = s.dnctl := rfl
@[simp] theorem State.faulted_setCur (s : State) (t : Nat) : (s.setCur t).faulted = s.faulted := rfl
@[simp] theorem State.contexts_setCur (s : State) (t : Nat) : (s.setCur t).contexts = s.contexts := rfl
@[simp] theorem State.cur_setCur (s : State) (t : Nat) : (s.setCur t).cur = t := rfl
@[simp] theorem State.inbox_setCur (s : State) (t : Nat) : (s.setCur t).inbox = s.inbox := rfl
@[simp] theorem State.fresh_setCur (s : State) (t : Nat) : (s.setCur t).fresh = s.fresh := rfl

/-! ### `State.setInbox` -/

@[simp] theorem State.cfg_setInbox (s : State) (acts : List HostAction) : (s.setInbox acts).cfg = s.cfg := rfl
@[simp] theorem State.alloc_setInbox (s : State) (acts : List HostAction) : (s.setInbox acts).alloc = s.alloc := rfl
@[simp] theorem State.mem_setInbox (s : State) (acts : List HostAction) : (s.setInbox acts).mem = s.mem := rfl
@[simp] theorem State.dnctl_setInbox (s : State) (acts : List HostAction) : (s.setInbox acts).dnctl = s.dnctl := rfl
@[simp] theorem State.faulted_setInbox (s : State) (acts : List HostAction) :
    (s.setInbox acts).faulted = s.faulted :=
  rfl
@[simp] theorem State.contexts_setInbox (s : State) (acts : List HostAction) :
    (s.setInbox acts).contexts = s.contexts :=
  rfl
@[simp] theorem State.cur_setInbox (s : State) (acts : List HostAction) : (s.setInbox acts).cur = s.cur := rfl
@[simp] theorem State.inbox_setInbox (s : State) (acts : List HostAction) : (s.setInbox acts).inbox = acts := rfl
@[simp] theorem State.fresh_setInbox (s : State) (acts : List HostAction) : (s.setInbox acts).fresh = s.fresh := rfl

/-! ### `State.setPort` -/

@[simp] theorem State.cfg_setPort (s : State) (t : Nat) (ws : List Word) : (s.setPort t ws).cfg = s.cfg := rfl
@[simp] theorem State.alloc_setPort (s : State) (t : Nat) (ws : List Word) : (s.setPort t ws).alloc = s.alloc := rfl
@[simp] theorem State.mem_setPort (s : State) (t : Nat) (ws : List Word) : (s.setPort t ws).mem = s.mem := rfl
@[simp] theorem State.dnctl_setPort (s : State) (t : Nat) (ws : List Word) : (s.setPort t ws).dnctl = s.dnctl := rfl
@[simp] theorem State.faulted_setPort (s : State) (t : Nat) (ws : List Word) :
    (s.setPort t ws).faulted = s.faulted :=
  rfl
@[simp] theorem State.contexts_setPort (s : State) (t : Nat) (ws : List Word) :
    (s.setPort t ws).contexts = s.contexts.modify t fun c => { c with words := ws } :=
  rfl
@[simp] theorem State.cur_setPort (s : State) (t : Nat) (ws : List Word) : (s.setPort t ws).cur = s.cur := rfl
@[simp] theorem State.inbox_setPort (s : State) (t : Nat) (ws : List Word) : (s.setPort t ws).inbox = s.inbox := rfl
@[simp] theorem State.fresh_setPort (s : State) (t : Nat) (ws : List Word) : (s.setPort t ws).fresh = s.fresh := rfl

/-! ### `State.complete` -/

@[simp] theorem State.cfg_complete (s : State) : (s.complete).cfg = s.cfg := rfl
@[simp] theorem State.alloc_complete (s : State) : (s.complete).alloc = s.alloc := rfl
@[simp] theorem State.mem_complete (s : State) : (s.complete).mem = s.mem := rfl
@[simp] theorem State.dnctl_complete (s : State) : (s.complete).dnctl = s.dnctl := rfl
@[simp] theorem State.faulted_complete (s : State) : (s.complete).faulted = s.faulted := rfl
@[simp] theorem State.contexts_complete (s : State) :
    (s.complete).contexts = s.contexts.modify s.cur fun c => { words := [], completed := c.completed + 1 } :=
  rfl
@[simp] theorem State.cur_complete (s : State) : (s.complete).cur = s.cur := rfl
@[simp] theorem State.inbox_complete (s : State) : (s.complete).inbox = s.inbox := rfl
@[simp] theorem State.fresh_complete (s : State) : (s.complete).fresh = s.fresh := rfl

/-! ### `State.setFaulted` -/

@[simp] theorem State.cfg_setFaulted (s : State) (r : FaultReason) : (s.setFaulted r).cfg = s.cfg := rfl
@[simp] theorem State.alloc_setFaulted (s : State) (r : FaultReason) : (s.setFaulted r).alloc = s.alloc := rfl
@[simp] theorem State.mem_setFaulted (s : State) (r : FaultReason) : (s.setFaulted r).mem = s.mem := rfl
@[simp] theorem State.dnctl_setFaulted (s : State) (r : FaultReason) : (s.setFaulted r).dnctl = s.dnctl := rfl
@[simp] theorem State.faulted_setFaulted (s : State) (r : FaultReason) : (s.setFaulted r).faulted = some r := rfl
@[simp] theorem State.contexts_setFaulted (s : State) (r : FaultReason) :
    (s.setFaulted r).contexts = s.contexts :=
  rfl
@[simp] theorem State.cur_setFaulted (s : State) (r : FaultReason) : (s.setFaulted r).cur = s.cur := rfl
@[simp] theorem State.inbox_setFaulted (s : State) (r : FaultReason) : (s.setFaulted r).inbox = s.inbox := rfl
@[simp] theorem State.fresh_setFaulted (s : State) (r : FaultReason) : (s.setFaulted r).fresh = s.fresh := rfl

/-! ### `State.setDnctl` -/

@[simp] theorem State.cfg_setDnctl (s : State) (t : Nat) (v : Word) : (s.setDnctl t v).cfg = s.cfg := rfl
@[simp] theorem State.alloc_setDnctl (s : State) (t : Nat) (v : Word) : (s.setDnctl t v).alloc = s.alloc := rfl
@[simp] theorem State.mem_setDnctl (s : State) (t : Nat) (v : Word) : (s.setDnctl t v).mem = s.mem := rfl
@[simp] theorem State.dnctl_setDnctl (s : State) (t : Nat) (v : Word) :
    (s.setDnctl t v).dnctl = s.dnctl.set (dnctlIndex s.cfg t) (dnctlHardwired v) :=
  rfl
@[simp] theorem State.faulted_setDnctl (s : State) (t : Nat) (v : Word) : (s.setDnctl t v).faulted = s.faulted := rfl
@[simp] theorem State.contexts_setDnctl (s : State) (t : Nat) (v : Word) :
    (s.setDnctl t v).contexts = s.contexts :=
  rfl
@[simp] theorem State.cur_setDnctl (s : State) (t : Nat) (v : Word) : (s.setDnctl t v).cur = s.cur := rfl
@[simp] theorem State.inbox_setDnctl (s : State) (t : Nat) (v : Word) : (s.setDnctl t v).inbox = s.inbox := rfl
@[simp] theorem State.fresh_setDnctl (s : State) (t : Nat) (v : Word) : (s.setDnctl t v).fresh = s.fresh := rfl

/-! ### `State.resetBlock` -/

@[simp] theorem State.cfg_resetBlock (s : State) : (s.resetBlock).cfg = s.cfg := rfl
@[simp] theorem State.alloc_resetBlock (s : State) : (s.resetBlock).alloc = s.alloc := rfl
@[simp] theorem State.mem_resetBlock (s : State) : (s.resetBlock).mem = s.mem := rfl
@[simp] theorem State.dnctl_resetBlock (s : State) :
    (s.resetBlock).dnctl = List.replicate (dnctlCount s.cfg) 0#32 :=
  rfl
@[simp] theorem State.faulted_resetBlock (s : State) : (s.resetBlock).faulted = none := rfl
@[simp] theorem State.contexts_resetBlock (s : State) :
    (s.resetBlock).contexts = List.replicate s.cfg.nctx Context.idle :=
  rfl
@[simp] theorem State.cur_resetBlock (s : State) : (s.resetBlock).cur = 0 := rfl
@[simp] theorem State.inbox_resetBlock (s : State) : (s.resetBlock).inbox = s.inbox := rfl
@[simp] theorem State.fresh_resetBlock (s : State) : (s.resetBlock).fresh = s.fresh := rfl

/-! ### Views -/

@[simp] theorem State.portWords_setMem (s : State) (m : Memory) (u : Nat) :
    (s.setMem m).portWords u = s.portWords u := rfl
@[simp] theorem State.completedOf_setMem (s : State) (m : Memory) (u : Nat) :
    (s.setMem m).completedOf u = s.completedOf u := rfl
@[simp] theorem State.executing_setMem (s : State) (m : Memory) (u : Nat) :
    (s.setMem m).executing u = s.executing u := rfl
@[simp] theorem State.dnctlOf_setMem (s : State) (m : Memory) (u : Nat) :
    (s.setMem m).dnctlOf u = s.dnctlOf u := rfl
@[simp] theorem State.portWords_setAlloc (s : State) (al : List Span) (u : Nat) :
    (s.setAlloc al).portWords u = s.portWords u := rfl
@[simp] theorem State.completedOf_setAlloc (s : State) (al : List Span) (u : Nat) :
    (s.setAlloc al).completedOf u = s.completedOf u := rfl
@[simp] theorem State.executing_setAlloc (s : State) (al : List Span) (u : Nat) :
    (s.setAlloc al).executing u = s.executing u := rfl
@[simp] theorem State.dnctlOf_setAlloc (s : State) (al : List Span) (u : Nat) :
    (s.setAlloc al).dnctlOf u = s.dnctlOf u := rfl
@[simp] theorem State.portWords_setCur (s : State) (t : Nat) (u : Nat) :
    (s.setCur t).portWords u = s.portWords u := rfl
@[simp] theorem State.completedOf_setCur (s : State) (t : Nat) (u : Nat) :
    (s.setCur t).completedOf u = s.completedOf u := rfl
@[simp] theorem State.executing_setCur (s : State) (t : Nat) (u : Nat) :
    (s.setCur t).executing u = s.executing u := rfl
@[simp] theorem State.dnctlOf_setCur (s : State) (t : Nat) (u : Nat) :
    (s.setCur t).dnctlOf u = s.dnctlOf u := rfl
@[simp] theorem State.portWords_setInbox (s : State) (acts : List HostAction) (u : Nat) :
    (s.setInbox acts).portWords u = s.portWords u := rfl
@[simp] theorem State.completedOf_setInbox (s : State) (acts : List HostAction) (u : Nat) :
    (s.setInbox acts).completedOf u = s.completedOf u := rfl
@[simp] theorem State.executing_setInbox (s : State) (acts : List HostAction) (u : Nat) :
    (s.setInbox acts).executing u = s.executing u := rfl
@[simp] theorem State.dnctlOf_setInbox (s : State) (acts : List HostAction) (u : Nat) :
    (s.setInbox acts).dnctlOf u = s.dnctlOf u := rfl
@[simp] theorem State.dnctlOf_setPort (s : State) (t : Nat) (ws : List Word) (u : Nat) :
    (s.setPort t ws).dnctlOf u = s.dnctlOf u := rfl
@[simp] theorem State.dnctlOf_complete (s : State) (u : Nat) :
    (s.complete).dnctlOf u = s.dnctlOf u := rfl
@[simp] theorem State.portWords_setFaulted (s : State) (r : FaultReason) (u : Nat) :
    (s.setFaulted r).portWords u = s.portWords u := rfl
@[simp] theorem State.completedOf_setFaulted (s : State) (r : FaultReason) (u : Nat) :
    (s.setFaulted r).completedOf u = s.completedOf u := rfl
@[simp] theorem State.executing_setFaulted (s : State) (r : FaultReason) (u : Nat) :
    (s.setFaulted r).executing u = s.executing u := rfl
@[simp] theorem State.dnctlOf_setFaulted (s : State) (r : FaultReason) (u : Nat) :
    (s.setFaulted r).dnctlOf u = s.dnctlOf u := rfl
@[simp] theorem State.portWords_setDnctl (s : State) (t : Nat) (v : Word) (u : Nat) :
    (s.setDnctl t v).portWords u = s.portWords u := rfl
@[simp] theorem State.completedOf_setDnctl (s : State) (t : Nat) (v : Word) (u : Nat) :
    (s.setDnctl t v).completedOf u = s.completedOf u := rfl
@[simp] theorem State.executing_setDnctl (s : State) (t : Nat) (v : Word) (u : Nat) :
    (s.setDnctl t v).executing u = s.executing u := rfl

/-- A port reads as what was put into it; there is a port for every context there is. -/
theorem State.portWords_setPort_same (s : State) {t : Nat} (ws : List Word) (h : t < s.contexts.length) :
    (s.setPort t ws).portWords t = ws := by
  simp [State.portWords, h]

theorem State.portWords_setPort_other (s : State) {t u : Nat} (ws : List Word) (h : u ≠ t) :
    (s.setPort t ws).portWords u = s.portWords u := by
  simp [State.portWords, Ne.symm h]

/-- After completion the port of the current context is idle. -/
@[simp] theorem State.portWords_complete_same (s : State) : s.complete.portWords s.cur = [] := by
  by_cases h : s.cur < s.contexts.length
  · simp [State.portWords, h]
  · simp [State.portWords, h]

theorem State.portWords_complete_other (s : State) {u : Nat} (h : u ≠ s.cur) :
    s.complete.portWords u = s.portWords u := by
  simp [State.portWords, Ne.symm h]

theorem State.completedOf_complete_same (s : State) (h : s.cur < s.contexts.length) :
    s.complete.completedOf s.cur = s.completedOf s.cur + 1 := by
  simp [State.completedOf, h]

theorem State.completedOf_complete_other (s : State) {u : Nat} (h : u ≠ s.cur) :
    s.complete.completedOf u = s.completedOf u := by
  simp [State.completedOf, Ne.symm h]

theorem State.executing_setPort_other (s : State) {t u : Nat} (ws : List Word) (h : u ≠ t) :
    (s.setPort t ws).executing u = s.executing u := by
  simp [State.executing, State.portWords_setPort_other s ws h]

theorem State.executing_complete_other (s : State) {u : Nat} (h : u ≠ s.cur) :
    s.complete.executing u = s.executing u := by
  simp [State.executing, State.portWords_complete_other s h]

@[simp] theorem State.executing_complete_same (s : State) : s.complete.executing s.cur = none := by
  simp [State.executing, decode]

@[simp] theorem dnctlHardwired_idem (r : Word) : dnctlHardwired (dnctlHardwired r) = dnctlHardwired r := by
  simp [dnctlHardwired, BitVec.and_assoc]

/-- `DNCTL[t]` reads as what was written to it, but for the hardwired bits. -/
theorem State.dnctlOf_setDnctl_same (s : State) {t : Nat} (v : Word) (h : dnctlIndex s.cfg t < s.dnctl.length) :
    (s.setDnctl t v).dnctlOf t = dnctlHardwired v := by
  simp [State.dnctlOf, h]

/-- A register that `DNCTL[t]` does not name is left alone. -/
theorem State.dnctlOf_setDnctl_other (s : State) {t u : Nat} (v : Word)
    (h : dnctlIndex s.cfg u ≠ dnctlIndex s.cfg t) : (s.setDnctl t v).dnctlOf u = s.dnctlOf u := by
  simp [State.dnctlOf, List.getD, Ne.symm h]

end Sys2Proof.Machine
end

