-- ==== Sys2Proof/Laws/Transfer.lean ====
section
/-! SUPPORT. The operands of a format `T` command: its elements and their addresses, its precondition checks in the
terms of `Sys2Proof.Safety`, and all that `runTransfer` can do. -/

namespace Sys2Proof.Machine

open Sys2Proof.Safety

/-! ### Spans -/

theorem Span.has_iff (sp : Span) (a : Nat) : sp.has a = true ↔ sp.base ≤ a ∧ a < sp.base + sp.len := by
  simp [Span.has]

/-- Two ranges meet exactly when some address lies in both. -/
theorem Span.meets_iff (p q : Span) :
    p.meets q = true ↔ ∃ a, (p.base ≤ a ∧ a < p.base + p.len) ∧ (q.base ≤ a ∧ a < q.base + q.len) := by
  simp only [Span.meets, decide_eq_true_eq]
  constructor
  · intro h
    exact ⟨max p.base q.base, by omega, by omega⟩
  · rintro ⟨a, h1, h2⟩
    omega

theorem Span.meets_comm (p q : Span) : p.meets q = q.meets p := by
  rw [Bool.eq_iff_iff, Span.meets_iff, Span.meets_iff]
  exact ⟨fun ⟨a, h1, h2⟩ => ⟨a, h2, h1⟩, fun ⟨a, h1, h2⟩ => ⟨a, h2, h1⟩⟩

theorem Span.meets_eq_false_iff (p q : Span) : p.meets q = false ↔ Apart p.base p.len q.base q.len := by
  rw [← Bool.not_eq_true, Span.meets_iff]
  simp [Apart]

theorem owned_iff (alloc : List Span) (sp : Span) : owned alloc sp = true ↔ OwnedRange alloc sp.base sp.len := by
  simp [owned, OwnedRange, Span.ok, Span.within, and_assoc]

/-- Every element is owned, each in some span. -/
theorem ownedElements_iff (alloc : List Span) (w n a : Nat) :
    ownedElements alloc w n a = true ↔ ∀ k, k < n → OwnedRange alloc (a + w * k) w := by
  induction n generalizing a with
  | zero => simp [ownedElements]
  | succ n ih =>
    rw [ownedElements, Bool.and_eq_true, owned_iff, ih]
    constructor
    · rintro ⟨h0, h⟩ (_ | k) hk
      · exact h0
      · rw [show a + w * (k + 1) = a + w + w * k by ring]
        exact h k (by omega)
    · refine fun h => ⟨h 0 (by omega), fun k hk => ?_⟩
      rw [show a + w + w * k = a + w * (k + 1) by ring]
      exact h (k + 1) (by omega)

theorem pairwiseApart_iff (l : List Span) :
    pairwiseApart l = true ↔ l.Pairwise (fun p q => p.meets q = false) := by
  induction l with
  | nil => simp [pairwiseApart]
  | cons p l ih => simp [pairwiseApart, ih]

theorem Span.mem_addresses {sps : List Span} {a : Nat} :
    a ∈ Span.addresses sps ↔ ∃ sp ∈ sps, sp.base ≤ a ∧ a < sp.base + sp.len := by
  simp [Span.addresses, List.mem_range'_1]

/-! ### Elements and addresses -/

theorem mem_elements {x : Transfer} {e : Nat × Nat} :
    e ∈ elements x ↔ e.1 < frameCount x ∧ e.2 < chCount x := by
  obtain ⟨f, c⟩ := e
  simp [elements]

theorem elements_nodup (x : Transfer) : (elements x).Nodup := by
  unfold elements
  rw [List.nodup_flatMap]
  refine ⟨fun f _ => ?_, ?_⟩
  · exact List.Nodup.map (fun a b h => by simpa using h) List.nodup_range
  · refine List.nodup_range.pairwise_of_forall_ne ?_
    intro a _ b _ hab
    rw [Function.onFun, List.disjoint_left]
    intro e he he'
    simp only [List.mem_map] at he he'
    obtain ⟨c, -, rfl⟩ := he
    obtain ⟨d, -, h⟩ := he'
    exact hab (by simpa using (congrArg Prod.fst h).symm)

/-- An element's place in the PCM buffer is inside it. -/
theorem element_index_lt {x : Transfer} {f c : Nat} (hf : f < frameCount x) (hc : c < chCount x) :
    f * chCount x + c < chCount x * frameCount x := by
  have h : (f + 1) * chCount x ≤ frameCount x * chCount x := Nat.mul_le_mul_right _ hf
  rw [Nat.mul_comm (chCount x), Nat.add_mul] at *
  omega

/-- Every place in the PCM buffer is that of one element. -/
theorem element_of_index {x : Transfer} {k : Nat} (hk : k < chCount x * frameCount x) :
    ∃ f c, f < frameCount x ∧ c < chCount x ∧ k = f * chCount x + c := by
  have hc : 0 < chCount x := Nat.pos_of_mul_pos_right (Nat.zero_lt_of_lt hk)
  exact ⟨k / chCount x, k % chCount x, Nat.div_lt_of_lt_mul hk, Nat.mod_lt _ hc, by
    rw [Nat.mul_comm, Nat.div_add_mod]⟩

/-- Different elements have different places in the PCM buffer. -/
theorem element_index_inj {x : Transfer} {f c f' c' : Nat} (hc : c < chCount x) (hc' : c' < chCount x)
    (h : f * chCount x + c = f' * chCount x + c') : f = f' ∧ c = c' := by
  have h1 : (f * chCount x + c) / chCount x = f := by
    rw [Nat.mul_comm, Nat.mul_add_div (by omega), Nat.div_eq_of_lt hc, Nat.add_zero]
  have h2 : (f' * chCount x + c') / chCount x = f' := by
    rw [Nat.mul_comm, Nat.mul_add_div (by omega), Nat.div_eq_of_lt hc', Nat.add_zero]
  have hf : f = f' := by rw [← h1, ← h2, h]
  subst hf
  exact ⟨rfl, by omega⟩

theorem Transfer.wf_iff (x : Transfer) : x.wf = true ↔ x.planes.length = chCount x := by
  simp [Transfer.wf, chCount]

theorem plane_mem {x : Transfer} (hw : x.wf = true) {c : Nat} (hc : c < chCount x) :
    x.planes.getD c 0#32 ∈ x.planes := by
  have h : c < x.planes.length := by rw [(Transfer.wf_iff x).mp hw]; exact hc
  rw [List.getD_eq_getElem _ _ h]
  exact List.getElem_mem h

/-! ### The checks -/

theorem noNull_iff (x : Transfer) :
    NoNull x ↔ ¬(x.pcm.toNat = 0 ∨ x.planes.any (fun b => b.toNat == 0) = true) := by
  simp [NoNull]

theorem aligned_iff (x : Transfer) :
    Aligned x ↔ ¬(x.pcm.toNat % 2 ≠ 0 ∨ x.planes.any (fun b => b.toNat % 4 != 0) = true) := by
  simp [Aligned]

/-- Every element of the PCM buffer is owned, element by element of the command or place by place. -/
theorem pcmOwned_iff (x : Transfer) (alloc : List Span) :
    (∀ f c, f < frameCount x → c < chCount x → OwnedRange alloc (pcmAddr x f c) 2) ↔
      ownedElements alloc 2 (chCount x * frameCount x) x.pcm.toNat = true := by
  rw [ownedElements_iff]
  constructor
  · intro h k hk
    obtain ⟨f, c, hf, hc, rfl⟩ := element_of_index hk
    exact h f c hf hc
  · exact fun h f c hf hc => h _ (element_index_lt hf hc)

theorem buffersOwned_iff (x : Transfer) (alloc : List Span) :
    BuffersOwned x alloc ↔
      ¬(ownedElements alloc 2 (chCount x * frameCount x) x.pcm.toNat = false ∨
        x.planes.any (fun b => !ownedElements alloc 4 (frameCount x) b.toNat) = true) := by
  rw [BuffersOwned, pcmOwned_iff]
  simp [ownedElements_iff]

/-- The first check that fails, line by line (40 R49, 41 R64, 60 R90). -/
theorem commonBreach_cases (x : Transfer) (alloc : List Span) :
    (¬CountsPositive x ∧ commonBreach x alloc = some .zeroCount) ∨
    (CountsPositive x ∧ ¬NoNull x ∧ commonBreach x alloc = some .nullBuffer) ∨
    (CountsPositive x ∧ NoNull x ∧ ¬Aligned x ∧ commonBreach x alloc = some .misaligned) ∨
    (CountsPositive x ∧ NoNull x ∧ Aligned x ∧ ¬BuffersOwned x alloc ∧ commonBreach x alloc = some .capacity) ∨
    (BasicContract x alloc ∧ commonBreach x alloc = none) := by
  have h0 : CountsPositive x ↔ ¬(chCount x = 0 ∨ frameCount x = 0) := by simp [CountsPositive]
  unfold commonBreach
  split
  · next h => exact .inl ⟨by rw [h0]; exact not_not.mpr h, rfl⟩
  · next h1 =>
    split
    · next h => exact .inr (.inl ⟨h0.mpr h1, by rw [noNull_iff]; exact not_not.mpr h, rfl⟩)
    · next h2 =>
      split
      · next h => exact .inr (.inr (.inl ⟨h0.mpr h1, (noNull_iff x).mpr h2, by
          rw [aligned_iff]; exact not_not.mpr h, rfl⟩))
      · next h3 =>
        split
        · next h => exact .inr (.inr (.inr (.inl ⟨h0.mpr h1, (noNull_iff x).mpr h2, (aligned_iff x).mpr h3, by
            rw [buffersOwned_iff]; exact not_not.mpr h, rfl⟩)))
        · next h4 => exact .inr (.inr (.inr (.inr ⟨⟨h0.mpr h1, (noNull_iff x).mpr h2, (aligned_iff x).mpr h3,
            (buffersOwned_iff x alloc).mpr h4⟩, rfl⟩)))

theorem commonBreach_none_iff (x : Transfer) (alloc : List Span) :
    commonBreach x alloc = none ↔ BasicContract x alloc := by
  rcases commonBreach_cases x alloc with ⟨h, e⟩ | ⟨-, h, e⟩ | ⟨-, -, h, e⟩ | ⟨-, -, -, h, e⟩ | ⟨h, e⟩
  · simpa [e] using fun b : BasicContract x alloc => h b.counts
  · simpa [e] using fun b : BasicContract x alloc => h b.nonNull
  · simpa [e] using fun b : BasicContract x alloc => h b.aligned
  · simpa [e] using fun b : BasicContract x alloc => h b.owned
  · simp [e, h]

theorem outputApart_iff (x : Transfer) : (planeSpans x).any (pcmSpan x).meets = false ↔ OutputApart x := by
  simp only [planeSpans, List.any_map, List.any_eq_false, Function.comp, Bool.not_eq_true, OutputApart,
    Span.meets_eq_false_iff]
  simp [pcmSpan, planeSpan, Nat.mul_assoc]

theorem planesApart_iff (x : Transfer) : pairwiseApart (planeSpans x) = true ↔ PlanesApart x := by
  rw [pairwiseApart_iff, planeSpans, List.pairwise_map, List.pairwise_iff_getElem]
  simp only [Span.meets_eq_false_iff, planeSpan, PlanesApart]
  constructor
  · intro h c d hc hd hne
    rcases Nat.lt_or_gt_of_ne hne with hlt | hgt
    · exact h c d hc hd hlt
    · exact fun p hp => h d c hd hc hgt p ⟨hp.2, hp.1⟩
  · exact fun h i j hi hj hij => h i j hi hj (Nat.ne_of_lt hij)

/-- `ILV`'s checks all pass exactly when the contract of 40 R49 holds. -/
theorem ilvBreach_none_iff (x : Transfer) (alloc : List Span) :
    ilvBreach x alloc = none ↔ BasicContract x alloc ∧ OutputApart x := by
  rw [← commonBreach_none_iff, ← outputApart_iff]
  unfold ilvBreach
  split <;> simp_all

/-- `DILV`'s checks all pass exactly when the contract of 41 R64 holds. -/
theorem dilvBreach_none_iff (x : Transfer) (alloc : List Span) :
    dilvBreach x alloc = none ↔ BasicContract x alloc ∧ OutputApart x ∧ PlanesApart x := by
  rw [← commonBreach_none_iff, ← outputApart_iff, ← planesApart_iff]
  unfold dilvBreach
  split <;> simp_all

/-- All that a format `T` command can do when it answers a next state. -/
theorem runTransfer_next {x : Transfer} {breach : Option FaultReason} {m : Memory} {s s' : State}
    (h : runTransfer x breach m s = .next s') :
    s.faulted = none ∧ x.wf = true ∧
      ((∃ r, breach = some r ∧ s' = s.setFaulted r) ∨ (breach = none ∧ s' = (s.setMem m).complete)) := by
  unfold runTransfer at h
  split at h
  · simp at h
  · next hf =>
    split at h
    · next hw =>
      split at h
      · next r => exact ⟨hf, hw, .inl ⟨r, rfl, by simpa [raise] using h.symm⟩⟩
      · exact ⟨hf, hw, .inr ⟨rfl, by simpa using h.symm⟩⟩
    · simp at h

/-- When a format `T` command completes. -/
theorem runTransfer_ok {x : Transfer} {m : Memory} {s : State} (hf : s.faulted = none) (hw : x.wf = true) :
    runTransfer x none m s = .next (s.setMem m).complete := by
  simp [runTransfer, hf, hw]

/-- When a format `T` command raises. -/
theorem runTransfer_raise {x : Transfer} {m : Memory} {s : State} (r : FaultReason) (hf : s.faulted = none)
    (hw : x.wf = true) : runTransfer x (some r) m s = .next (s.setFaulted r) := by
  simp [runTransfer, hf, hw, raise]

end Sys2Proof.Machine
end

