-- ==== Sys2Proof/Laws/Convert.lean ====
section
/-! SUPPORT. The loops of the two converters as loops of stores: where each element stores, that no store disturbs an
input, and which bytes of memory a whole command can change. -/

namespace Sys2Proof.Machine

open Sys2Proof.Safety

/-- Where an element of `ILV` stores. -/
def ilvTarget (x : Transfer) (e : Nat × Nat) : Nat := pcmAddr x e.1 e.2

/-- Where an element of `DILV` stores. -/
def dilvTarget (x : Transfer) (e : Nat × Nat) : Nat := planeAddr x e.2 e.1

/-- What an element of `ILV` stores. -/
def ilvValue (cfg : Cfg) (dn : Word) (x : Transfer) (m : Memory) (e : Nat × Nat) : Nat :=
  (enc16 (f2p cfg dn (BitVec.ofNat 32 (memRead m (planeAddr x e.2 e.1) 4)))).toNat

/-- What an element of `DILV` stores. -/
def dilvValue (x : Transfer) (m : Memory) (e : Nat × Nat) : Nat :=
  (p2f (BitVec.ofNat 16 (memRead m (pcmAddr x e.1 e.2) 2))).toNat

theorem ilvLoop_eq (cfg : Cfg) (dn : Word) (x : Transfer) (l : List (Nat × Nat)) (m : Memory) :
    ilvLoop cfg dn x l m = storeLoop (ilvTarget x) 2 (ilvValue cfg dn x) l m := rfl

theorem dilvLoop_eq (x : Transfer) (l : List (Nat × Nat)) (m : Memory) :
    dilvLoop x l m = storeLoop (dilvTarget x) 4 (dilvValue x) l m := rfl

/-! ### Where the elements lie -/

/-- An element of the PCM buffer lies inside it. -/
theorem pcmAddr_bounds {x : Transfer} {f c : Nat} (hf : f < frameCount x) (hc : c < chCount x) :
    x.pcm.toNat ≤ pcmAddr x f c ∧ pcmAddr x f c + 2 ≤ x.pcm.toNat + 2 * (chCount x * frameCount x) := by
  have := element_index_lt hf hc
  unfold pcmAddr
  omega

/-- An element of a plane lies inside it. -/
theorem planeAddr_bounds {x : Transfer} {f : Nat} (c : Nat) (hf : f < frameCount x) :
    (x.planes.getD c 0#32).toNat ≤ planeAddr x c f ∧
      planeAddr x c f + 4 ≤ (x.planes.getD c 0#32).toNat + 4 * frameCount x := by
  unfold planeAddr
  omega

theorem ilv_storesApart (x : Transfer) : StoresApart (ilvTarget x) 2 (elements x) := by
  rintro ⟨f, c⟩ he ⟨f', c'⟩ he' hne
  have hc := (mem_elements.mp he).2
  have hc' := (mem_elements.mp he').2
  have : f * chCount x + c ≠ f' * chCount x + c' := by
    intro h
    obtain ⟨rfl, rfl⟩ := element_index_inj hc hc' h
    exact hne rfl
  simp only [ilvTarget, pcmAddr]
  omega

theorem dilv_storesApart {x : Transfer} (hw : x.wf = true) (hp : PlanesApart x) :
    StoresApart (dilvTarget x) 4 (elements x) := by
  rintro ⟨f, c⟩ he ⟨f', c'⟩ he' hne
  obtain ⟨hf, hc⟩ := mem_elements.mp he
  obtain ⟨hf', hc'⟩ := mem_elements.mp he'
  simp only at hf hc hf' hc'
  have hl := (Transfer.wf_iff x).mp hw
  simp only [dilvTarget, planeAddr]
  by_cases hcc : c = c'
  · subst hcc
    have : f ≠ f' := fun h => hne (by rw [h])
    omega
  · have h := hp c c' (by omega) (by omega) hcc
    rw [List.getD_eq_getElem _ _ (show c < x.planes.length by omega),
      List.getD_eq_getElem _ _ (show c' < x.planes.length by omega)]
    by_contra hcon
    rcases Nat.le_total (x.planes[c].toNat + 4 * f) (x.planes[c'].toNat + 4 * f') with hle | hle
    · exact h (x.planes[c'].toNat + 4 * f') ⟨⟨by omega, by omega⟩, by omega, by omega⟩
    · exact h (x.planes[c].toNat + 4 * f) ⟨⟨by omega, by omega⟩, by omega, by omega⟩

/-- The bytes that `ILV` stores to are in the PCM buffer. -/
theorem ilv_storedBy {x : Transfer} {a : Nat} (h : StoredBy (ilvTarget x) 2 (elements x) a) :
    x.pcm.toNat ≤ a ∧ a < x.pcm.toNat + 2 * (chCount x * frameCount x) := by
  obtain ⟨⟨f, c⟩, he, h1, h2⟩ := h
  obtain ⟨hf, hc⟩ := mem_elements.mp he
  have := pcmAddr_bounds hf hc
  simp only [ilvTarget] at h1 h2
  simp only at this
  omega

/-- The bytes that `DILV` stores to are in the first `F` elements of the planes. -/
theorem dilv_storedBy {x : Transfer} {a : Nat} (h : StoredBy (dilvTarget x) 4 (elements x) a) :
    ∃ c, c < chCount x ∧ (x.planes.getD c 0#32).toNat ≤ a ∧
      a < (x.planes.getD c 0#32).toNat + 4 * frameCount x := by
  obtain ⟨⟨f, c⟩, he, h1, h2⟩ := h
  obtain ⟨hf, hc⟩ := mem_elements.mp he
  have := planeAddr_bounds (x := x) c hf
  simp only [dilvTarget] at h1 h2
  simp only at this
  exact ⟨c, hc, by omega, by omega⟩

/-! ### No store disturbs an input -/

/-- A byte of an input plane is none that `ILV` stores to. -/
theorem ilv_input_not_stored {x : Transfer} (hw : x.wf = true) (ho : OutputApart x) {c f a : Nat}
    (hc : c < chCount x) (hf : f < frameCount x) (h1 : planeAddr x c f ≤ a) (h2 : a < planeAddr x c f + 4) :
    ¬StoredBy (ilvTarget x) 2 (elements x) a := by
  intro h
  have hs := ilv_storedBy h
  have hb := planeAddr_bounds (x := x) c hf
  refine ho _ (plane_mem hw hc) a ⟨⟨hs.1, ?_⟩, by omega, by omega⟩
  rw [Nat.mul_assoc]; exact hs.2

/-- A byte of the input PCM buffer is none that `DILV` stores to. -/
theorem dilv_input_not_stored {x : Transfer} (hw : x.wf = true) (ho : OutputApart x) {c f a : Nat}
    (hc : c < chCount x) (hf : f < frameCount x) (h1 : pcmAddr x f c ≤ a) (h2 : a < pcmAddr x f c + 2) :
    ¬StoredBy (dilvTarget x) 4 (elements x) a := by
  intro h
  obtain ⟨d, hd, h3, h4⟩ := dilv_storedBy h
  have hb := pcmAddr_bounds hf hc
  refine ho _ (plane_mem hw hd) a ⟨⟨by omega, ?_⟩, h3, h4⟩
  rw [Nat.mul_assoc]; omega

theorem ilv_undisturbed (cfg : Cfg) (dn : Word) {x : Transfer} (hw : x.wf = true) (ho : OutputApart x) :
    Undisturbed (ilvTarget x) 2 (ilvValue cfg dn x) (elements x) := by
  rintro m m' hm ⟨f, c⟩ he
  obtain ⟨hf, hc⟩ := mem_elements.mp he
  have : memRead m (planeAddr x c f) 4 = memRead m' (planeAddr x c f) 4 :=
    memRead_congr fun a h1 h2 => hm a (ilv_input_not_stored hw ho hc hf h1 h2)
  simp only [ilvValue, this]

theorem dilv_undisturbed {x : Transfer} (hw : x.wf = true) (ho : OutputApart x) :
    Undisturbed (dilvTarget x) 4 (dilvValue x) (elements x) := by
  rintro m m' hm ⟨f, c⟩ he
  obtain ⟨hf, hc⟩ := mem_elements.mp he
  have : memRead m (pcmAddr x f c) 2 = memRead m' (pcmAddr x f c) 2 :=
    memRead_congr fun a h1 h2 => hm a (dilv_input_not_stored hw ho hc hf h1 h2)
  simp only [dilvValue, this]

/-! ### The canonical form -/

theorem ownedRange_le {alloc : List Span} {a n : Nat} (h : OwnedRange alloc a n) : a + n ≤ memSize := by
  obtain ⟨sp, -, -, h2, -, h4⟩ := h
  omega

theorem ilv_target_le {x : Transfer} {alloc : List Span} (h : BuffersOwned x alloc) :
    ∀ e ∈ elements x, ilvTarget x e + 2 ≤ memSize := by
  rintro ⟨f, c⟩ he
  obtain ⟨hf, hc⟩ := mem_elements.mp he
  exact ownedRange_le (h.1 f c hf hc)

theorem dilv_target_le {x : Transfer} {alloc : List Span} (hw : x.wf = true) (h : BuffersOwned x alloc) :
    ∀ e ∈ elements x, dilvTarget x e + 4 ≤ memSize := by
  rintro ⟨f, c⟩ he
  obtain ⟨hf, hc⟩ := mem_elements.mp he
  exact ownedRange_le (h.2 _ (plane_mem hw hc) f hf)

/-- Owned buffers that are not empty lie below the top of memory. -/
theorem buffersOwned_le {x : Transfer} {alloc : List Span} (h : BuffersOwned x alloc) (hc : CountsPositive x) :
    (pcmSpan x).base + (pcmSpan x).len ≤ memSize ∧
      ∀ b ∈ x.planes, (planeSpan x b).base + (planeSpan x b).len ≤ memSize := by
  have hn : 0 < chCount x * frameCount x := Nat.mul_pos (Nat.pos_of_ne_zero hc.1) (Nat.pos_of_ne_zero hc.2)
  have hf := Nat.pos_of_ne_zero hc.2
  refine ⟨?_, fun b hb => ?_⟩
  · have h1 := (ownedElements_iff _ _ _ _).mp ((pcmOwned_iff x alloc).mp h.1) (chCount x * frameCount x - 1) (by omega)
    have := ownedRange_le h1
    simp only [pcmSpan]; omega
  · have := ownedRange_le (h.2 b hb (frameCount x - 1) (by omega))
    simp only [planeSpan]; omega

end Sys2Proof.Machine
end

