-- ==== Sys2Proof/Laws/Decode.lean ====
section
/-! SUPPORT. The laws of the decoder: which word 0 selects which operation, by its fields, and what the decoder needs
and leaves. -/

namespace Sys2Proof

/-- No two rows of the opcode map can be hit by one word. -/
theorem opcodeMap_disjoint :
    opcodeMap.Pairwise (fun r q => r.pattern &&& (r.mask &&& q.mask) ≠ q.pattern &&& (r.mask &&& q.mask)) := by
  decide

/-- The operation of a word 0, as three tests. -/
theorem opOf_eq (w : Word) :
    opOf w = if w &&& 0xFFFF0000#32 = 0x01000000#32 then some .ilv
      else if w &&& 0xFFFF0000#32 = 0x02000000#32 then some .dilv
      else if w = 0x03000001#32 then some .dnen else none := by
  have h3 : w &&& 0xFFFFFFFF#32 = w := BitVec.and_allOnes
  unfold opOf opcodeMap
  simp only [List.find?, OpRow.hits, h3]
  by_cases h1 : w &&& 0xFFFF0000#32 = 0x01000000#32
  · simp [h1]
  · by_cases h2 : w &&& 0xFFFF0000#32 = 0x02000000#32
    · simp [h2]
    · by_cases h4 : w = 0x03000001#32
      · simp [h4]
      · simp [h1, h2, h4, beq_eq_false_iff_ne.mpr h1, beq_eq_false_iff_ne.mpr h2, beq_eq_false_iff_ne.mpr h4]

/-- The match of a format `T` row is on the upper half of the word. -/
theorem and_upper_eq_iff (w k : Word) (hk : k.extractLsb' 0 16 = 0#16) :
    w &&& 0xFFFF0000#32 = k ↔ w.extractLsb' 16 16 = k.extractLsb' 16 16 := by
  constructor
  · rintro rfl
    refine BitVec.eq_of_getLsbD_eq fun i hi => ?_
    interval_cases i <;> simp
  · intro h
    refine BitVec.eq_of_getLsbD_eq fun i hi => ?_
    by_cases h16 : i < 16
    · have := congrArg (fun v : BitVec 16 => v.getLsbD i) hk
      simp [h16] at this
      interval_cases i <;> simp_all
    · have := congrArg (fun v : BitVec 16 => v.getLsbD (i - 16)) h
      simp [show i - 16 < 16 by omega, show 16 + (i - 16) = i by omega] at this
      interval_cases i <;> simp_all

theorem opOf_ilv_iff (w : Word) : opOf w = some .ilv ↔ w.extractLsb' 16 16 = 0x0100#16 := by
  rw [show (0x0100#16) = (0x01000000#32).extractLsb' 16 16 from rfl, ← and_upper_eq_iff w _ rfl, opOf_eq]
  split
  · simp [*]
  · split
    · simp [*]
    · split <;> simp [*]

theorem opOf_dilv_iff (w : Word) : opOf w = some .dilv ↔ w.extractLsb' 16 16 = 0x0200#16 := by
  rw [show (0x0200#16) = (0x02000000#32).extractLsb' 16 16 from rfl, ← and_upper_eq_iff w _ rfl, opOf_eq]
  split
  · next h => simp [h]
  · split
    · simp [*]
    · split <;> simp [*]

theorem opOf_dnen_iff (w : Word) : opOf w = some .dnen ↔ w = 0x03000001#32 := by
  rw [opOf_eq]
  constructor
  · intro h
    split at h
    · simp at h
    · split at h
      · simp at h
      · split at h
        · assumption
        · simp at h
  · rintro rfl; decide

/-- The bits of a head word. -/
theorem getLsbD_headWord (opc : BitVec 8) (ch : BitVec 16) (i : Nat) :
    (headWord opc ch).getLsbD i =
      if i < 16 then ch.getLsbD i else if i < 24 then false else opc.getLsbD (i - 24) := by
  have h : (headWord opc ch).getLsbD i = (opc ++ 0#8 ++ ch : BitVec (8 + 8 + 16)).getLsbD i := rfl
  rw [h, BitVec.getLsbD_append, BitVec.getLsbD_append]
  by_cases h1 : i < 16
  · simp [h1]
  · by_cases h2 : i < 24
    · simp [h1, h2, show i - 16 < 8 by omega]
    · simp [h1, h2, show ¬ i - 16 < 8 by omega, show i - 16 - 8 = i - 24 by omega]

@[simp] theorem extract_high_headWord (opc : BitVec 8) (ch : BitVec 16) :
    (headWord opc ch).extractLsb' 24 8 = opc := by
  refine BitVec.eq_of_getLsbD_eq fun i hi => ?_
  simp [getLsbD_headWord, hi, show ¬ 24 + i < 16 by omega, show ¬ 24 + i < 24 by omega]

@[simp] theorem extract_upper_headWord_ilv (ch : BitVec 16) :
    (headWord 0x01#8 ch).extractLsb' 16 16 = 0x0100#16 := by
  refine BitVec.eq_of_getLsbD_eq fun i hi => ?_
  rw [BitVec.getLsbD_extractLsb', getLsbD_headWord]
  interval_cases i <;> simp

@[simp] theorem extract_upper_headWord_dilv (ch : BitVec 16) :
    (headWord 0x02#8 ch).extractLsb' 16 16 = 0x0200#16 := by
  refine BitVec.eq_of_getLsbD_eq fun i hi => ?_
  rw [BitVec.getLsbD_extractLsb', getLsbD_headWord]
  interval_cases i <;> simp

@[simp] theorem opOf_headWord_ilv (ch : BitVec 16) : opOf (headWord 0x01#8 ch) = some .ilv := by
  simp [opOf_ilv_iff]

@[simp] theorem opOf_headWord_dilv (ch : BitVec 16) : opOf (headWord 0x02#8 ch) = some .dilv := by
  simp [opOf_dilv_iff]

@[simp] theorem chField_headWord (opc : BitVec 8) (ch : BitVec 16) : chField (headWord opc ch) = ch := by
  refine BitVec.eq_of_getLsbD_eq fun i hi => ?_
  simp [chField, getLsbD_headWord, hi]

/-- A word 0 of a format `T` row is the head word of its own `CH` field. -/
theorem eq_headWord {w : Word} {opc : BitVec 8}
    (h : w.extractLsb' 16 16 = (headWord opc 0#16).extractLsb' 16 16) : w = headWord opc (chField w) := by
  refine BitVec.eq_of_getLsbD_eq fun i hi => ?_
  rw [getLsbD_headWord]
  by_cases h16 : i < 16
  · simp [h16, chField]
  · have := congrArg (fun v : BitVec 16 => v.getLsbD (i - 16)) h
    simpa [getLsbD_headWord, h16, show i - 16 < 16 by omega, show 16 + (i - 16) = i by omega] using this

/-- What the operands of a format `T` command take from the words after word 0, and what they leave. -/
theorem decodeTransfer_ok_iff {w0 : Word} {ws : List Word} {x : Transfer} {rest : List Word} :
    decodeTransfer w0 ws = .ok (x, rest) ↔
      ws = x.operandWords ++ rest ∧ x.ch = chField w0 ∧ x.planes.length = (chField w0).toNat := by
  constructor
  · intro h
    match ws, h with
    | frames :: pcm :: tail, h =>
      simp only [decodeTransfer] at h
      split at h
      · simp at h
      · next hlen =>
        simp only [Except.ok.injEq, Prod.mk.injEq] at h
        obtain ⟨rfl, rfl⟩ := h
        refine ⟨by simp [Transfer.operandWords], rfl, ?_⟩
        simp only [List.length_take]; omega
  · rintro ⟨rfl, hch, hlen⟩
    rw [← hch] at hlen
    have h : ¬ (x.planes ++ rest).length < x.ch.toNat := by simp; omega
    simp only [Transfer.operandWords, List.cons_append, decodeTransfer, ← hch, if_neg h]
    rw [← hlen, List.take_left, List.drop_left]

/-- When the operands of a format `T` command are not all there. -/
theorem decodeTransfer_error_iff {w0 : Word} {ws : List Word} {e : DecodeError} :
    decodeTransfer w0 ws = .error e ↔ e = .incomplete ∧ ws.length < 2 + (chField w0).toNat := by
  match ws with
  | [] => simp [decodeTransfer, eq_comm]
  | [a] => simp [decodeTransfer, eq_comm]; omega
  | frames :: pcm :: tail =>
    simp only [decodeTransfer, List.length_cons]
    split
    · simp [eq_comm]; omega
    · simp; omega

end Sys2Proof
end

