-- ==== Sys2Proof/Laws/Float.lean ====
section
/-! SUPPORT. The laws of the two sample formats and of the roundings (00 R8, R9), and what the clamp and the two
roundings of 40 R51 give. -/

namespace Sys2Proof.Machine

/-! ### int16 -/

/-- `sint16` is the two's complement value (00 R8). -/
theorem sint16_eq_toInt (h : Half) : sint16 h = h.toInt := by
  have h1 : (h.extractLsb' 0 15).toNat = h.toNat % 32768 := by simp
  have h2 : (h.getLsbD 15).toNat = h.toNat / 32768 % 2 := by
    rw [← BitVec.testBit_toNat, Nat.toNat_testBit]
  have h3 := h.isLt
  rw [sint16, h1, h2, BitVec.toInt_eq_toNat_cond]
  split <;> omega

theorem sint16_bounds (h : Half) : -32768 ≤ sint16 h ∧ sint16 h ≤ 32767 := by
  rw [sint16_eq_toInt]
  have h1 := BitVec.le_toInt h
  have h2 := BitVec.toInt_lt (x := h)
  norm_num at h1 h2
  omega

/-- `sint16(enc16(n)) = n` inside the int16 range (00 R8). -/
theorem sint16_enc16 {n : Int} (h1 : -32768 ≤ n) (h2 : n ≤ 32767) : sint16 (enc16 n) = n := by
  rw [sint16_eq_toInt, enc16, BitVec.toInt_ofInt]
  rw [Int.bmod_def]
  norm_num
  split <;> omega

/-- `enc16(sint16(h)) = h`. -/
theorem enc16_sint16 (h : Half) : enc16 (sint16 h) = h := by
  rw [sint16_eq_toInt, enc16, BitVec.ofInt_toInt]

/-! ### Rounding -/

theorem rhaz_of_nonneg {q : Rat} (h : 0 ≤ q) : rhaz q = ⌊q + 1 / 2⌋ := by
  have : (0 : Rat) ≤ q + 1 / 2 := by linarith
  rw [rhaz, if_pos h, trunc, if_pos this]

theorem rhaz_of_neg {q : Rat} (h : q < 0) : rhaz q = ⌈q - 1 / 2⌉ := by
  have h1 : ¬(0 : Rat) ≤ q := not_le.mpr h
  have h2 : ¬(0 : Rat) ≤ q - 1 / 2 := by linarith
  simp only [rhaz, h1, if_false, trunc, h2]

theorem rhaz_neg (q : Rat) : rhaz (-q) = -rhaz q := by
  rcases lt_trichotomy q 0 with h | h | h
  · rw [rhaz_of_nonneg (by linarith), rhaz_of_neg h, ← Int.floor_neg]
    congr 1; ring
  · subst h
    have : rhaz (-0 : Rat) = 0 := by rw [neg_zero, rhaz_of_nonneg le_rfl]; norm_num
    rw [this, rhaz_of_nonneg le_rfl]; norm_num
  · rw [rhaz_of_neg (by linarith), rhaz_of_nonneg h.le, ← Int.ceil_neg]
    congr 1; ring

theorem isTie_iff (q : Rat) : isTie q = true ↔ ∃ n : Int, q = n + 1 / 2 := by
  simp only [isTie, decide_eq_true_eq]
  constructor
  · intro h
    exact ⟨⌊q⌋, by linarith⟩
  · rintro ⟨n, rfl⟩
    have : ⌊(n : Rat) + 1 / 2⌋ = n := by
      rw [Int.floor_eq_iff]; constructor <;> linarith
    rw [this]; ring

/-- `rhaz` is within one half of its argument. -/
theorem rhaz_near (q : Rat) : (rhaz q : Rat) - q ≤ 1 / 2 ∧ q - (rhaz q : Rat) ≤ 1 / 2 := by
  rcases le_or_gt 0 q with h | h
  · rw [rhaz_of_nonneg h]
    have h1 := Int.floor_le (q + 1 / 2)
    have h2 := Int.lt_floor_add_one (q + 1 / 2)
    constructor <;> linarith
  · rw [rhaz_of_neg h]
    have h1 := Int.le_ceil (q - 1 / 2)
    have h2 := Int.ceil_lt_add_one (q - 1 / 2)
    constructor <;> linarith

/-- `rne` is within one half of its argument. -/
theorem rne_near (q : Rat) : (rne q : Rat) - q ≤ 1 / 2 ∧ q - (rne q : Rat) ≤ 1 / 2 := by
  have h1 := Int.floor_le q
  have h2 := Int.lt_floor_add_one q
  unfold rne
  split
  · constructor <;> linarith
  · split
    · push_cast; constructor <;> linarith
    · split
      · constructor <;> linarith
      · push_cast; constructor <;> linarith

/-- An integer within one half of a number that is no tie is nearer than one half. -/
theorem near_strict {q : Rat} (ht : ∀ n : Int, q ≠ n + 1 / 2) {k : Int}
    (h : (k : Rat) - q ≤ 1 / 2 ∧ q - (k : Rat) ≤ 1 / 2) : (k : Rat) - q < 1 / 2 ∧ q - (k : Rat) < 1 / 2 := by
  constructor
  · refine lt_of_le_of_ne h.1 fun e => ht (k - 1) ?_
    push_cast; linarith
  · refine lt_of_le_of_ne h.2 fun e => ht k ?_
    linarith

/-- Two integers nearer than one half to one number are equal. -/
theorem near_unique {q : Rat} {k l : Int} (hk : (k : Rat) - q < 1 / 2 ∧ q - (k : Rat) < 1 / 2)
    (hl : (l : Rat) - q ≤ 1 / 2 ∧ q - (l : Rat) ≤ 1 / 2) : k = l := by
  have h1 : (k : Rat) - l < 1 := by linarith [hk.1, hl.2]
  have h2 : (l : Rat) - k < 1 := by linarith [hk.2, hl.1]
  have h1' : k - l < 1 := by exact_mod_cast h1
  have h2' : l - k < 1 := by exact_mod_cast h2
  omega

/-- Off ties the two roundings agree (00 R9). -/
theorem rne_eq_rhaz {q : Rat} (ht : ∀ n : Int, q ≠ n + 1 / 2) : rne q = rhaz q :=
  near_unique (near_strict ht (rne_near q)) (rhaz_near q)

theorem rhaz_tie (n : Int) : rhaz ((n : Rat) + 1 / 2) = if 0 ≤ n then n + 1 else n := by
  split
  · next h =>
    have hn : (0 : Rat) ≤ n := by exact_mod_cast h
    rw [rhaz_of_nonneg (by linarith), show (n : Rat) + 1 / 2 + 1 / 2 = ((n + 1 : Int) : Rat) by push_cast; ring,
      Int.floor_intCast]
  · next h =>
    have hn : (n : Rat) ≤ -1 := by exact_mod_cast (by omega : n ≤ -1)
    rw [rhaz_of_neg (by linarith), show (n : Rat) + 1 / 2 - 1 / 2 = (n : Rat) by ring, Int.ceil_intCast]

theorem rne_tie (n : Int) : rne ((n : Rat) + 1 / 2) = if n % 2 = 0 then n else n + 1 := by
  have hf : ⌊(n : Rat) + 1 / 2⌋ = n := by
    rw [Int.floor_eq_iff]; constructor <;> linarith
  have hd : (n : Rat) + 1 / 2 - n = 1 / 2 := by ring
  simp only [rne, hf, hd, lt_irrefl, if_false]

theorem rhaz_intCast (n : Int) : rhaz (n : Rat) = n :=
  (near_unique (q := (n : Rat)) (by norm_num) (rhaz_near _)).symm

theorem rhaz_mono {p q : Rat} (h : p ≤ q) : rhaz p ≤ rhaz q := by
  rcases le_or_gt 0 p with hp | hp
  · rw [rhaz_of_nonneg hp, rhaz_of_nonneg (hp.trans h)]
    exact Int.floor_mono (by linarith)
  · rcases le_or_gt 0 q with hq | hq
    · rw [rhaz_of_neg hp, rhaz_of_nonneg hq]
      have h1 : ⌈p - 1 / 2⌉ ≤ 0 := Int.ceil_le.mpr (by push_cast; linarith)
      have h2 : 0 ≤ ⌊q + 1 / 2⌋ := Int.floor_nonneg.mpr (by linarith)
      omega
    · rw [rhaz_of_neg hp, rhaz_of_neg hq]
      exact Int.ceil_mono (by linarith)

/-- `rne` at a number that is no tie, or at a tie. -/
theorem rne_cases (q : Rat) :
    (∀ n : Int, q ≠ n + 1 / 2) ∧ rne q = rhaz q ∨
      ∃ n : Int, q = n + 1 / 2 ∧ rne q = if n % 2 = 0 then n else n + 1 := by
  by_cases h : ∃ n : Int, q = n + 1 / 2
  · obtain ⟨n, rfl⟩ := h
    exact .inr ⟨n, rfl, rne_tie n⟩
  · exact .inl ⟨fun n e => h ⟨n, e⟩, rne_eq_rhaz fun n e => h ⟨n, e⟩⟩

theorem rne_mono {p q : Rat} (h : p ≤ q) : rne p ≤ rne q := by
  rcases h.eq_or_lt with rfl | hlt
  · exact le_rfl
  · by_contra hcon
    have h1 := rne_near p
    have h2 := rne_near q
    have h3 : rne q + 1 ≤ rne p := by omega
    have h3' : (rne q : Rat) + 1 ≤ rne p := by exact_mod_cast h3
    linarith [h1.1, h2.2]

/-! ### Clamp and round (40 R51) -/

/-- What `clampRound` does to a scaled value in range, as one rounding. -/
def roundBy (tie : Tie) (q : Rat) : Int := if isTie q = true ∧ tie = .even then rne q else rhaz q

theorem roundBy_near (tie : Tie) (q : Rat) :
    (roundBy tie q : Rat) - q ≤ 1 / 2 ∧ q - (roundBy tie q : Rat) ≤ 1 / 2 := by
  unfold roundBy
  split
  · exact rne_near q
  · exact rhaz_near q

theorem roundBy_mono (tie : Tie) {p q : Rat} (h : p ≤ q) : roundBy tie p ≤ roundBy tie q := by
  cases tie with
  | away => simpa [roundBy] using rhaz_mono h
  | even =>
    have key : ∀ r : Rat, roundBy .even r = rne r := by
      intro r
      by_cases hr : isTie r = true
      · simp [roundBy, hr]
      · have : ∀ n : Int, r ≠ n + 1 / 2 := fun n e => hr ((isTie_iff r).mpr ⟨n, e⟩)
        simp [roundBy, hr, rne_eq_rhaz this]
    rw [key, key]
    exact rne_mono h

theorem clampRound_eq (tie : Tie) (q : Rat) :
    clampRound tie q = if 32767 < q then 32767 else if q < -32768 then -32768 else roundBy tie q := rfl

theorem clampRound_bounds (tie : Tie) (q : Rat) : -32768 ≤ clampRound tie q ∧ clampRound tie q ≤ 32767 := by
  rw [clampRound_eq]
  split
  · omega
  · next h1 =>
    split
    · omega
    · next h2 =>
      have h := roundBy_near tie q
      have h3 : (roundBy tie q : Rat) < 32768 := by linarith [h.1]
      have h4 : (-32769 : Rat) < roundBy tie q := by linarith [h.2]
      have h3' : roundBy tie q < 32768 := by exact_mod_cast h3
      have h4' : (-32769 : Int) < roundBy tie q := by exact_mod_cast h4
      omega

theorem clampRound_mono (tie : Tie) {p q : Rat} (h : p ≤ q) : clampRound tie p ≤ clampRound tie q := by
  have hp := clampRound_bounds tie p
  have hq := clampRound_bounds tie q
  by_cases h1 : 32767 < q
  · have : clampRound tie q = 32767 := by rw [clampRound_eq, if_pos h1]
    omega
  · by_cases h2 : p < -32768
    · have : clampRound tie p = -32768 := by
        rw [clampRound_eq, if_neg (by linarith), if_pos h2]
      omega
    · rw [clampRound_eq, clampRound_eq, if_neg (by linarith), if_neg h2, if_neg h1, if_neg (by linarith)]
      exact roundBy_mono tie h

/-! ### The scaled value (40 R53, R59) -/

theorem signFactor_cases (w : Word) : signFactor w = 1 ∨ signFactor w = -1 := by
  unfold signFactor; split <;> simp

theorem frac_lt (w : Word) : frac w < 2 ^ 23 := (w.extractLsb' 0 23).isLt

/-- A zero or subnormal value is far below one half after scaling. -/
theorem val_small {w : Word} (h : bexp w = 0) : -(1 / 65536) < val w ∧ val w < 1 / 65536 := by
  have hf : ((frac w : Nat) : Rat) < 2 ^ 23 := by exact_mod_cast frac_lt w
  have h0 : (0 : Rat) ≤ (frac w : Rat) := by positivity
  rw [val, if_pos h, Rat.mkRat_eq_div]
  rcases signFactor_cases w with hs | hs <;> rw [hs] <;> push_cast <;> constructor
  · rw [lt_div_iff₀ (by positivity)]; nlinarith
  · rw [div_lt_iff₀ (by positivity)]; nlinarith
  · rw [lt_div_iff₀ (by positivity)]; nlinarith
  · rw [div_lt_iff₀ (by positivity)]; nlinarith

/-- The scaled value is the value times 32768, except that a flushed operand is 0 where it was nearly 0. -/
theorem scaled_cases (dn w : Word) :
    scaled dn w = val w * 32768 ∨ (bexp w = 0 ∧ scaled dn w = 0) := by
  unfold scaled
  split
  · next h =>
    refine .inr ⟨?_, by ring⟩
    have := h.1
    simp only [isSubnormal, Bool.and_eq_true, beq_iff_eq] at this
    exact this.1
  · exact .inl rfl

/-- `f2p` of a finite sample. -/
theorem f2p_finite {w : Word} (cfg : Cfg) (dn : Word) (h : isFinite w = true) :
    f2p cfg dn w = clampRound (effTie cfg) (scaled dn w) := by
  have hb : bexp w ≠ 255 := by simpa [isFinite] using h
  simp [f2p, isNaN, isInf, hb]

/-- A scaled value nearer than one half to 0 rounds to 0. -/
theorem clampRound_small (tie : Tie) {q : Rat} (h1 : -(1 / 2) < q) (h2 : q < 1 / 2) : clampRound tie q = 0 := by
  rw [clampRound_eq, if_neg (by linarith), if_neg (by linarith)]
  refine (near_unique (q := q) (k := 0) ?_ (roundBy_near tie q)).symm
  push_cast
  constructor <;> linarith

/-- `f2p` does not see the flushing of operands (40 R59). -/
theorem f2p_finite_val {w : Word} (cfg : Cfg) (dn : Word) (h : isFinite w = true) :
    f2p cfg dn w = clampRound (effTie cfg) (val w * 32768) := by
  rw [f2p_finite cfg dn h]
  rcases scaled_cases dn w with he | ⟨hb, he⟩
  · rw [he]
  · have hv := val_small hb
    rw [he, clampRound_small _ (by norm_num) (by norm_num), clampRound_small _ (by linarith [hv.1]) (by linarith [hv.2])]

/-! ### The pattern that `p2f` builds (41 R65) -/

/-- The fraction field is below `2^23`. -/
theorem packFloat_frac_lt {m e : Nat} (he : e ≤ 15) (h2 : m < 2 ^ (e + 1)) :
    (m - 2 ^ e) * 2 ^ (23 - e) < 8388608 := by
  have h : m - 2 ^ e < 2 ^ e := by rw [pow_succ] at h2; have := Nat.two_pow_pos e; omega
  calc (m - 2 ^ e) * 2 ^ (23 - e) < 2 ^ e * 2 ^ (23 - e) := Nat.mul_lt_mul_of_pos_right h (by positivity)
    _ = 8388608 := by rw [← pow_add, show e + (23 - e) = 23 by omega]; norm_num

theorem packFloat_toNat {negative : Bool} {m e : Nat} (he : e ≤ 15) (h2 : m < 2 ^ (e + 1)) :
    (packFloat negative m e).toNat =
      (if negative then 2147483648 else 0) + (112 + e) * 8388608 + (m - 2 ^ e) * 2 ^ (23 - e) := by
  have h := packFloat_frac_lt he h2
  unfold packFloat
  rw [BitVec.toNat_ofNat, show (2 : Nat) ^ 31 = 2147483648 by norm_num, show (2 : Nat) ^ 23 = 8388608 by norm_num,
    show (2 : Nat) ^ 32 = 4294967296 by norm_num]
  generalize (m - 2 ^ e) * 2 ^ (23 - e) = P at *
  cases negative <;> simp <;> omega

theorem sign_eq (w : Word) : sign w = decide (w.toNat / 2147483648 % 2 = 1) := by
  rw [sign, ← BitVec.testBit_toNat, Nat.testBit_eq_decide_div_mod_eq]

theorem bexp_eq (w : Word) : bexp w = w.toNat / 8388608 % 256 := by
  simp [bexp, Nat.shiftRight_eq_div_pow]

theorem frac_eq (w : Word) : frac w = w.toNat % 8388608 := by
  simp [frac]

/-- The fields of the pattern. -/
theorem packFloat_fields {negative : Bool} {m e : Nat} (he : e ≤ 15) (h2 : m < 2 ^ (e + 1)) :
    sign (packFloat negative m e) = negative ∧ bexp (packFloat negative m e) = 112 + e ∧
      frac (packFloat negative m e) = (m - 2 ^ e) * 2 ^ (23 - e) := by
  have hp := packFloat_frac_lt he h2
  rw [sign_eq, bexp_eq, frac_eq, packFloat_toNat he h2]
  generalize (m - 2 ^ e) * 2 ^ (23 - e) = P at *
  have h1 : ((112 + e) * 8388608 + P) / 2147483648 % 2 = 0 := by omega
  have h3 : (2147483648 + (112 + e) * 8388608 + P) / 2147483648 % 2 = 1 := by omega
  cases negative
  · refine ⟨?_, ?_, ?_⟩
    · simp [h1]
    · simp only [Bool.false_eq_true, if_false]; omega
    · simp only [Bool.false_eq_true, if_false]; omega
  · refine ⟨?_, ?_, ?_⟩
    · simp [h3]
    · simp only [if_true]; omega
    · simp only [if_true]; omega

end Sys2Proof.Machine
end

