-- ==== Sys2Proof/Laws/PerInstr.lean ====
section
/-! SUPPORT. Statements about every instruction, one lemma per constructor. -/

namespace Sys2Proof.Laws

/-- The encoding of a well-formed instruction has as many words as its word 0 announces (30 R36, R37, R39). -/
def EncodedLength.Statement (i : Instr) : Prop :=
  i.wf = true → ∃ w0 rest, encode i = w0 :: rest ∧ (encode i).length = commandLength w0

theorem EncodedLength.ilv (x : Transfer) : EncodedLength.Statement (.ilv x) := by
  intro h
  have hx : x.planes.length = x.ch.toNat := by simpa [Instr.wf, Transfer.wf] using h
  exact ⟨_, _, rfl, by simp [encode, Transfer.operandWords, commandLength, hx]; omega⟩

theorem EncodedLength.dilv (x : Transfer) : EncodedLength.Statement (.dilv x) := by
  intro h
  have hx : x.planes.length = x.ch.toNat := by simpa [Instr.wf, Transfer.wf] using h
  exact ⟨_, _, rfl, by simp [encode, Transfer.operandWords, commandLength, hx]; omega⟩

theorem EncodedLength.dnen : EncodedLength.Statement .dnen := fun _ => ⟨_, _, rfl, by decide⟩

end Sys2Proof.Laws
end

