-- ==== Sys2Proof/Laws/Step.lean ====
section
/-! SUPPORT. All that `exec`, a Race, a host action and a step can do: one inversion lemma each. -/

namespace Sys2Proof.Machine

open Sys2Proof.Safety

/-! ### A command -/

/-- What a command whose checks pass does before it completes. -/
def effect (i : Instr) (s : State) : State :=
  match i with
  | .ilv x  => s.setMem (ilvLoop s.cfg (s.dnctlOf s.cur) x (elements x) s.mem)
  | .dilv x => s.setMem (dilvLoop x (elements x) s.mem)
  | .dnen   => enableDenormalMode s

/-- A live well-formed command whose checks pass has its effect and completes. -/
theorem exec_ok {i : Instr} {s : State} (hf : s.faulted = none) (hw : i.wf = true)
    (hb : breachOf i s.alloc = none) : exec i s = .next (effect i s).complete := by
  cases i with
  | ilv x =>
    have hb' : ilvBreach x s.alloc = none := hb
    simp only [exec, execIlv, hb']
    exact runTransfer_ok hf hw
  | dilv x =>
    have hb' : dilvBreach x s.alloc = none := hb
    simp only [exec, execDilv, hb']
    exact runTransfer_ok hf hw
  | dnen => simp [exec, execDnen, hf, effect]

/-- A live well-formed command whose checks find a breach raises it. -/
theorem exec_raise {i : Instr} {s : State} {r : FaultReason} (hf : s.faulted = none) (hw : i.wf = true)
    (hb : breachOf i s.alloc = some r) : exec i s = .next (s.setFaulted r) := by
  cases i with
  | ilv x =>
    have hb' : ilvBreach x s.alloc = some r := hb
    simp only [exec, execIlv, hb']
    exact runTransfer_raise r hf hw
  | dilv x =>
    have hb' : dilvBreach x s.alloc = some r := hb
    simp only [exec, execDilv, hb']
    exact runTransfer_raise r hf hw
  | dnen => simp [breachOf] at hb

/-- All that a command can do when it answers a next state. -/
theorem exec_next {i : Instr} {s s' : State} (h : exec i s = .next s') :
    s.faulted = none ∧ i.wf = true ∧
      ((∃ r, breachOf i s.alloc = some r ∧ s' = s.setFaulted r) ∨
        (breachOf i s.alloc = none ∧ s' = (effect i s).complete)) := by
  cases i with
  | ilv x =>
    obtain ⟨hf, hw, hc⟩ := runTransfer_next (show runTransfer x _ _ s = _ from h)
    exact ⟨hf, hw, hc⟩
  | dilv x =>
    obtain ⟨hf, hw, hc⟩ := runTransfer_next (show runTransfer x _ _ s = _ from h)
    exact ⟨hf, hw, hc⟩
  | dnen =>
    simp only [exec, execDnen] at h
    split at h
    · simp at h
    · next hf => exact ⟨hf, rfl, .inr ⟨rfl, by simpa [effect] using h.symm⟩⟩

/-- With `FAULTED` set a command has no effect (60 R87). -/
theorem exec_faulted {i : Instr} {s : State} {r : FaultReason} (h : s.faulted = some r) :
    exec i s = .fault (.halted r) := by
  cases i <;> simp [exec, execIlv, execDilv, execDnen, runTransfer, h]

@[simp] theorem effect_cfg (i : Instr) (s : State) : (effect i s).cfg = s.cfg := by
  cases i <;> simp [effect, enableDenormalMode, apply_ite State.cfg]
@[simp] theorem effect_alloc (i : Instr) (s : State) : (effect i s).alloc = s.alloc := by
  cases i <;> simp [effect, enableDenormalMode, apply_ite State.alloc]
@[simp] theorem effect_faulted (i : Instr) (s : State) : (effect i s).faulted = s.faulted := by
  cases i <;> simp [effect, enableDenormalMode, apply_ite State.faulted]
@[simp] theorem effect_contexts (i : Instr) (s : State) : (effect i s).contexts = s.contexts := by
  cases i <;> simp [effect, enableDenormalMode, apply_ite State.contexts]
@[simp] theorem effect_cur (i : Instr) (s : State) : (effect i s).cur = s.cur := by
  cases i <;> simp [effect, enableDenormalMode, apply_ite State.cur]
@[simp] theorem effect_inbox (i : Instr) (s : State) : (effect i s).inbox = s.inbox := by
  cases i <;> simp [effect, enableDenormalMode, apply_ite State.inbox]
@[simp] theorem effect_fresh (i : Instr) (s : State) : (effect i s).fresh = s.fresh := by
  cases i <;> simp [effect, enableDenormalMode, apply_ite State.fresh]
@[simp] theorem effect_portWords (i : Instr) (s : State) (u : Nat) :
    (effect i s).portWords u = s.portWords u := by simp [State.portWords]
@[simp] theorem effect_completedOf (i : Instr) (s : State) (u : Nat) :
    (effect i s).completedOf u = s.completedOf u := by simp [State.completedOf]

/-- The converters write no control register (10 R16). -/
theorem effect_dnctl_of_ne_dnen {i : Instr} (s : State) (h : i ≠ .dnen) : (effect i s).dnctl = s.dnctl := by
  cases i <;> simp_all [effect]

/-- `DNEN` accesses no memory (42 R70). -/
@[simp] theorem effect_dnen_mem (s : State) : (effect .dnen s).mem = s.mem := by
  simp [effect, enableDenormalMode, apply_ite State.mem]

/-- A command changes memory only inside the ranges it writes (20 R28). -/
theorem effect_read_other {i : Instr} (s : State) {a : Nat} (hw : i.wf = true)
    (h : ∀ sp ∈ writeSpans i, ¬(sp.base ≤ a ∧ a < sp.base + sp.len)) : (effect i s).mem.read a = s.mem.read a := by
  cases i with
  | ilv x =>
    refine storeLoop_read_other _ _ fun hs => ?_
    exact h (pcmSpan x) (by simp [writeSpans]) (ilv_storedBy hs)
  | dilv x =>
    refine storeLoop_read_other _ _ fun hs => ?_
    obtain ⟨c, hc, h1, h2⟩ := dilv_storedBy hs
    exact h (planeSpan x _) (List.mem_map_of_mem (plane_mem hw hc)) ⟨h1, h2⟩
  | dnen => simp

/-- A command whose checks pass keeps the canonical form of memory. -/
theorem effect_wf {i : Instr} {s : State} (hw : i.wf = true) (hb : breachOf i s.alloc = none)
    (hm : Memory.wf s.mem = true) : Memory.wf (effect i s).mem = true := by
  cases i with
  | ilv x =>
    exact Memory.wf_storeLoop hm (ilv_target_le ((ilvBreach_none_iff x s.alloc).mp hb).1.owned)
  | dilv x =>
    exact Memory.wf_storeLoop hm (dilv_target_le hw ((dilvBreach_none_iff x s.alloc).mp hb).1.owned)
  | dnen => simpa using hm

/-! ### Decoding a port -/

theorem decode_ok_wf {ws : List Word} {i : Instr} {rest : List Word} (h : decode ws = .ok (i, rest)) :
    i.wf = true := by
  match ws with
  | [] => simp [decode] at h
  | w0 :: ws =>
    simp only [decode] at h
    split at h
    · simp at h
    · simp only [Except.ok.injEq, Prod.mk.injEq] at h; rw [← h.1]; rfl
    · split at h
      · next x r hx =>
        simp only [Except.ok.injEq, Prod.mk.injEq] at h
        have := decodeTransfer_ok_iff.mp hx
        rw [← h.1]; simp [Instr.wf, Transfer.wf, this.2]
      · simp at h
    · split at h
      · next x r hx =>
        simp only [Except.ok.injEq, Prod.mk.injEq] at h
        have := decodeTransfer_ok_iff.mp hx
        rw [← h.1]; simp [Instr.wf, Transfer.wf, this.2]
      · simp at h

theorem executing_wf {s : State} {t : Nat} {i : Instr} (h : s.executing t = some i) : i.wf = true := by
  unfold State.executing at h
  split at h
  · next hd => simp only [Option.some.injEq] at h; subst h; exact decode_ok_wf hd
  · simp at h

/-- Only a context that is there executes. -/
theorem executing_lt {s : State} {t : Nat} {i : Instr} (h : s.executing t = some i) : t < s.contexts.length := by
  by_contra hlt
  have : s.portWords t = [] := by
    simp [State.portWords, List.getElem?_eq_none (Nat.le_of_not_lt hlt)]
  simp [State.executing, this, decode] at h

theorem mem_allExecuting {s : State} {i : Instr} :
    i ∈ s.allExecuting ↔ ∃ t, t < s.contexts.length ∧ s.executing t = some i := by
  simp [State.allExecuting]

theorem mem_othersExecuting {s : State} {t : Nat} {i : Instr} :
    i ∈ s.othersExecuting t ↔ ∃ u, u ≠ t ∧ s.executing u = some i := by
  simp only [State.othersExecuting, List.mem_filterMap, List.mem_filter, List.mem_range, bne_iff_ne, ne_eq]
  exact ⟨fun ⟨u, ⟨_, h2⟩, h3⟩ => ⟨u, h2, h3⟩, fun ⟨u, h2, h3⟩ => ⟨u, ⟨executing_lt h3, h2⟩, h3⟩⟩

/-! ### Conflicts -/

theorem anyMeet_iff (ps qs : List Span) :
    anyMeet ps qs = true ↔ ∃ p ∈ ps, ∃ q ∈ qs, p.meets q = true := by simp [anyMeet]

theorem anyMeet_comm (ps qs : List Span) : anyMeet ps qs = anyMeet qs ps := by
  rw [Bool.eq_iff_iff, anyMeet_iff, anyMeet_iff]
  constructor
  · rintro ⟨p, hp, q, hq, h⟩; exact ⟨q, hq, p, hp, by rwa [Span.meets_comm]⟩
  · rintro ⟨p, hp, q, hq, h⟩; exact ⟨q, hq, p, hp, by rwa [Span.meets_comm]⟩

theorem anyMeet_append (ps qs rs : List Span) : anyMeet ps (qs ++ rs) = (anyMeet ps qs || anyMeet ps rs) := by
  rw [Bool.eq_iff_iff, Bool.or_eq_true, anyMeet_iff, anyMeet_iff, anyMeet_iff]
  simp only [List.mem_append]
  constructor
  · rintro ⟨p, hp, q, hq | hq, h⟩
    · exact .inl ⟨p, hp, q, hq, h⟩
    · exact .inr ⟨p, hp, q, hq, h⟩
  · rintro (⟨p, hp, q, hq, h⟩ | ⟨p, hp, q, hq, h⟩)
    · exact ⟨p, hp, q, .inl hq, h⟩
    · exact ⟨p, hp, q, .inr hq, h⟩

/-- A conflict is one of both commands (20 R32). -/
theorem conflict_comm (i j : Instr) : conflict i j = conflict j i := by
  simp only [conflict, bufferSpans, anyMeet_append]
  rw [anyMeet_comm (writeSpans i) (readSpans j), anyMeet_comm (writeSpans i) (writeSpans j),
    anyMeet_comm (readSpans i) (writeSpans j)]
  cases anyMeet (readSpans j) (writeSpans i) <;> cases anyMeet (writeSpans j) (writeSpans i) <;>
    cases anyMeet (writeSpans j) (readSpans i) <;> rfl

/-! ### Host actions and steps -/

/-- All that `runContext` can do when it answers a next state. -/
theorem runContext_next {t : Nat} {s s' : State} (h : runContext t s = .next s') :
    (∃ i, s.executing t = some i ∧ exec i (s.setCur t) = .next s') ∨
      (∃ r, s' = s.setFaulted r) ∨ s' = s := by
  unfold runContext at h
  split at h
  · next i rest hd => exact .inl ⟨i, by simp [State.executing, hd], h⟩
  · exact .inr (.inl ⟨_, by simpa [raise] using h.symm⟩)
  · exact .inr (.inr (by simpa using h.symm))

/-- A context that executes a command runs it. -/
theorem runContext_executing {t : Nat} {s : State} {i : Instr} (h : s.executing t = some i) :
    runContext t s = exec i (s.setCur t) := by
  unfold State.executing at h
  unfold runContext
  split at h
  · next hd => simp only [Option.some.injEq] at h; subst h; rw [hd]
  · simp at h

/-- What a Race leaves (60 R87): the mark with its reason, unspecified bytes in the buffers and nothing else changed. -/
theorem raiseRace_next (bufs : List Span) (s : State) :
    ∃ s', raiseRace bufs s = .next s' ∧ s'.faulted = some .race ∧ s'.cfg = s.cfg ∧ s'.alloc = s.alloc ∧
      s'.dnctl = s.dnctl ∧ s'.contexts = s.contexts ∧ s'.cur = s.cur ∧ s'.inbox = s.inbox ∧
      (∀ a, (∀ sp ∈ bufs, ¬(sp.base ≤ a ∧ a < sp.base + sp.len)) → s'.mem.read a = s.mem.read a) ∧
      (Memory.wf s.mem = true → (∀ sp ∈ bufs, sp.base + sp.len ≤ memSize) → Memory.wf s'.mem = true) := by
  refine ⟨_, rfl, rfl, rfl, rfl, rfl, rfl, rfl, rfl, ?_, ?_⟩
  · intro a ha
    refine scramble_read_other _ _ _ fun hm => ?_
    obtain ⟨sp, hsp, h⟩ := Span.mem_addresses.mp hm
    exact ha sp hsp h
  · intro hm hb
    refine Memory.wf_scramble _ hm fun a ha => ?_
    obtain ⟨sp, hsp, h⟩ := Span.mem_addresses.mp ha
    have := hb sp hsp
    omega

/-- The kinds of step that answer a next state. -/
inductive StepKind (s s' : State) : Prop where
  /-- A reset. -/
  | reset (acts : List HostAction) (inbox : s.inbox = .reset :: acts) (result : s' = (s.setInbox acts).resetBlock)
  /-- Context `t` moves; the host's list is as before or has lost its head. -/
  | run (t : Nat) (acts : List HostAction) (live : s.faulted = none) (ctx : t < s.contexts.length)
      (result : runContext t (s.setInbox acts) = .next s')
  /-- A port takes a word. -/
  | accept (t : Nat) (w : Word) (acts : List HostAction) (live : s.faulted = none) (ctx : t < s.contexts.length)
      (inbox : s.inbox = .writePort t w :: acts) (idle : s.executing t = none)
      (result : acceptWord t w (s.setInbox acts) = .next s')
  /-- The host reads a byte. -/
  | load (a : Word) (acts : List HostAction) (live : s.faulted = none) (inbox : s.inbox = .load a :: acts)
      (result : hostLoad a (s.setInbox acts) = .next s')
  /-- The host writes a byte. -/
  | store (a : Word) (b : Byte) (acts : List HostAction) (live : s.faulted = none)
      (inbox : s.inbox = .store a b :: acts) (result : hostStore a b (s.setInbox acts) = .next s')
  /-- The host creates a buffer. -/
  | create (sp : Span) (acts : List HostAction) (live : s.faulted = none) (inbox : s.inbox = .create sp :: acts)
      (result : s' = (s.setInbox acts).setAlloc (sp :: s.alloc))
  /-- The host destroys a buffer. -/
  | destroy (sp : Span) (acts : List HostAction) (live : s.faulted = none) (inbox : s.inbox = .destroy sp :: acts)
      (result : hostDestroy sp (s.setInbox acts) = .next s')
  /-- Nothing happens. -/
  | idle (live : s.faulted = none) (result : s' = s)

theorem step_kind {s s' : State} (h : step s = .next s') : StepKind s s' := by
  unfold step at h
  split at h
  · unfold faultedStep at h
    split at h
    · next hi => exact .reset _ hi (by simpa using h.symm)
    · simp at h
  · next hf =>
    unfold liveStep at h
    split at h
    · next hi =>
      unfold idleStep at h
      split at h
      · next t ht =>
        have hlt : t < s.contexts.length := by
          have := List.mem_of_find?_eq_some ht
          simpa using this
        refine .run t [] hf hlt ?_
        rw [← hi]; exact h
      · exact .idle hf (by simpa using h.symm)
    · next act rest hi =>
      cases act with
      | reset => exact .reset rest hi (by simpa [hostStep] using h.symm)
      | writePort t w =>
        simp only [hostStep, portWrite] at h
        split at h
        · simp at h
        · next hlt =>
          split at h
          · exact .run t s.inbox hf (by omega) h
          · next hx => exact .accept t w rest hf (by omega) hi hx h
      | advance t =>
        simp only [hostStep, advanceContext] at h
        split at h
        · simp at h
        · next hlt => exact .run t rest hf (by simpa using hlt) h
      | load a => exact .load a rest hf hi h
      | store a b => exact .store a b rest hf hi h
      | create sp => exact .create sp rest hf hi (by simpa [hostStep, hostCreate] using h.symm)
      | destroy sp => exact .destroy sp rest hf hi h

end Sys2Proof.Machine
end

