-- ==== Sys2Proof/Laws/Port.lean ====
section
/-! SUPPORT. All that a port does with a word, what the checks of a command promise about its buffers, and all that a
command does to the control registers. -/

namespace Sys2Proof.Machine

open Sys2Proof.Safety

theorem mem_bufferSpans_ilv {x : Transfer} {sp : Span} :
    sp ∈ bufferSpans (.ilv x) ↔ sp = pcmSpan x ∨ ∃ b ∈ x.planes, sp = planeSpan x b := by
  simp [bufferSpans, readSpans, writeSpans, planeSpans, or_comm, eq_comm]

theorem mem_bufferSpans_dilv {x : Transfer} {sp : Span} :
    sp ∈ bufferSpans (.dilv x) ↔ sp = pcmSpan x ∨ ∃ b ∈ x.planes, sp = planeSpan x b := by
  simp [bufferSpans, readSpans, writeSpans, planeSpans, eq_comm]

/-- The buffers of a command that passed its checks lie below the top of memory. -/
theorem breachOf_none_buffers {i : Instr} {alloc : List Span} (hb : breachOf i alloc = none) :
    ∀ sp ∈ bufferSpans i, sp.base + sp.len ≤ memSize := by
  cases i with
  | ilv x =>
    obtain ⟨hB, -⟩ := (ilvBreach_none_iff _ _).mp hb
    obtain ⟨h1, h2⟩ := buffersOwned_le hB.owned hB.counts
    intro sp hsp
    obtain rfl | ⟨b, hb, rfl⟩ := mem_bufferSpans_ilv.mp hsp
    exacts [h1, h2 b hb]
  | dilv x =>
    obtain ⟨hB, -⟩ := (dilvBreach_none_iff _ _).mp hb
    obtain ⟨h1, h2⟩ := buffersOwned_le hB.owned hB.counts
    intro sp hsp
    obtain rfl | ⟨b, hb, rfl⟩ := mem_bufferSpans_dilv.mp hsp
    exacts [h1, h2 b hb]
  | dnen => simp [bufferSpans, readSpans, writeSpans]

/-- What is owned of the buffers of a transfer stays so when `ALLOC` keeps owning each piece of them that it owned. -/
theorem buffersOwned_transfer {x : Transfer} {al al' : List Span} (hB : BuffersOwned x al)
    (h : ∀ sp, sp = pcmSpan x ∨ (∃ b ∈ x.planes, sp = planeSpan x b) → ∀ a n, 0 < n → sp.base ≤ a →
      a + n ≤ sp.base + sp.len → OwnedRange al a n → OwnedRange al' a n) : BuffersOwned x al' := by
  refine ⟨fun f c hf hc => ?_, fun b hb f hf => ?_⟩
  · have := pcmAddr_bounds hf hc
    exact h (pcmSpan x) (.inl rfl) _ 2 (by omega) this.1 this.2 (hB.1 f c hf hc)
  · refine h (planeSpan x b) (.inr ⟨b, hb, rfl⟩) _ 4 (by omega) ?_ ?_ (hB.2 b hb f hf) <;> simp only [planeSpan] <;> omega

/-- A command that passed its checks passes them under any other `ALLOC` that keeps owning the pieces of its buffers. -/
theorem breachOf_none_of_owned {i : Instr} {al al' : List Span} (hb : breachOf i al = none)
    (h : ∀ sp ∈ bufferSpans i, ∀ a n, 0 < n → sp.base ≤ a → a + n ≤ sp.base + sp.len →
      OwnedRange al a n → OwnedRange al' a n) : breachOf i al' = none := by
  cases i with
  | ilv x =>
    obtain ⟨hB, hO⟩ := (ilvBreach_none_iff _ _).mp hb
    exact (ilvBreach_none_iff _ _).mpr ⟨⟨hB.1, hB.2, hB.3,
      buffersOwned_transfer hB.4 fun sp hs => h sp (mem_bufferSpans_ilv.mpr hs)⟩, hO⟩
  | dilv x =>
    obtain ⟨hB, hO⟩ := (dilvBreach_none_iff _ _).mp hb
    exact (dilvBreach_none_iff _ _).mpr ⟨⟨hB.1, hB.2, hB.3,
      buffersOwned_transfer hB.4 fun sp hs => h sp (mem_bufferSpans_dilv.mpr hs)⟩, hO⟩
  | dnen => rfl

/-- A byte outside the buffers of all commands in execution is outside those of any of them (20 R31, 60 R87). -/
theorem outside_running_buffers {s : State} {js : List Instr} (h : ∀ i ∈ js, i ∈ s.allExecuting) {p : Nat}
    (hp : ¬InBufferOfRunning bufferSpans s p) :
    ∀ sp ∈ js.flatMap bufferSpans, ¬(sp.base ≤ p ∧ p < sp.base + sp.len) := by
  intro sp hsp hh
  obtain ⟨i, hi, hsp⟩ := List.mem_flatMap.mp hsp
  obtain ⟨t, ht, hx⟩ := mem_allExecuting.mp (h i hi)
  exact hp ⟨t, i, ht, hx, sp, hsp, hh⟩

/-- Word by word, a port never holds more than one command. -/
theorem decode_snoc {ws : List Word} {w : Word} {i : Instr} {rest : List Word}
    (hws : ws = [] ∨ decode ws = .error .incomplete) (h : decode (ws ++ [w]) = .ok (i, rest)) : rest = [] := by
  rcases hws with rfl | hws
  · simp only [List.nil_append, decode] at h
    split at h
    · simp at h
    · simp at h; exact h.2
    · simp [decodeTransfer] at h
    · simp [decodeTransfer] at h
  · match ws with
    | [] =>
      simp only [List.nil_append, decode] at h
      split at h
      · simp at h
      · simp at h; exact h.2
      · simp [decodeTransfer] at h
      · simp [decodeTransfer] at h
    | w0 :: ws =>
      simp only [List.cons_append, decode] at h hws
      have key : ∀ x r, decodeTransfer w0 ws = .error .incomplete → decodeTransfer w0 (ws ++ [w]) = .ok (x, r) →
          r = [] := by
        intro x r h1 h2
        have e1 := (decodeTransfer_error_iff.mp h1).2
        obtain ⟨e2, e3, e4⟩ := decodeTransfer_ok_iff.mp h2
        have hl := congrArg List.length e2
        simp only [Transfer.operandWords, List.length_append, List.length_cons, List.length_nil, e4] at hl
        apply List.eq_nil_of_length_eq_zero; omega
      split at h
      · simp at h
      · next ho => simp [ho] at hws
      · next ho =>
        simp only [ho] at hws
        split at h
        · next x r hx =>
          simp at h
          obtain ⟨-, rfl⟩ := h
          refine key x _ ?_ hx
          cases hd : decodeTransfer w0 ws with
          | ok p => simp [hd] at hws
          | error e => simp [hd] at hws; rw [hws]
        · simp at h
      · next ho =>
        simp only [ho] at hws
        split at h
        · next x r hx =>
          simp at h
          obtain ⟨-, rfl⟩ := h
          refine key x _ ?_ hx
          cases hd : decodeTransfer w0 ws with
          | ok p => simp [hd] at hws
          | error e => simp [hd] at hws; rw [hws]
        · simp at h

/-- All that a port can do with a word when the step answers a next state. -/
theorem acceptWord_next {t : Nat} {w : Word} {s s' : State} (h : acceptWord t w s = .next s') :
    ∃ ws, ws = s.portWords t ++ [w] ∧
      ((∃ r, s' = (s.setPort t ws).setFaulted r) ∨
        (decode ws = .error .incomplete ∧ s' = s.setPort t ws) ∨
        ∃ i rest, decode ws = .ok (i, rest) ∧ breachOf i s.alloc = none ∧
          ((∀ j ∈ s.othersExecuting t, conflict i j = false) ∧ s' = s.setPort t ws ∨
            ∃ js, js ≠ [] ∧ (∀ j ∈ js, j ∈ s.othersExecuting t) ∧
              raiseRace ((i :: js).flatMap bufferSpans) (s.setPort t ws) = .next s')) := by
  refine ⟨_, rfl, ?_⟩
  have hoth : (s.setPort t (s.portWords t ++ [w])).othersExecuting t = s.othersExecuting t := by
    unfold State.othersExecuting
    simp only [State.contexts_setPort, List.length_modify]
    refine List.filterMap_congr fun u hu => ?_
    simp at hu
    rw [State.executing_setPort_other _ _ hu.2]
  unfold acceptWord at h
  split at h
  · simp [raise] at h; exact .inl ⟨_, h.symm⟩
  · next hd => simp at h; exact .inr (.inl ⟨hd, h.symm⟩)
  · next i rest hd =>
    unfold beginCommand at h
    split at h
    · simp [raise] at h; exact .inl ⟨_, h.symm⟩
    · next hb =>
      refine .inr (.inr ⟨i, rest, hd, hb, ?_⟩)
      rw [hoth] at h
      split at h
      · next hf =>
        simp at h
        rw [List.filter_eq_nil_iff] at hf
        exact .inl ⟨fun j hj => by simpa using hf j hj, h.symm⟩
      · next js hne =>
        refine .inr ⟨_, hne, fun j hj => (List.mem_filter.mp hj).1, h⟩

/-- No byte that a command writes lies in a buffer of a command that does not conflict with it. -/
theorem not_conflict_apart {i j : Instr} (h : conflict i j = false) {a : Nat}
    (hi : ∃ sp ∈ writeSpans i, sp.base ≤ a ∧ a < sp.base + sp.len) :
    ¬∃ sp ∈ bufferSpans j, sp.base ≤ a ∧ a < sp.base + sp.len := by
  obtain ⟨p, hp, h1, h2⟩ := hi
  rintro ⟨q, hq, h3, h4⟩
  have : conflict i j = true := by
    rw [conflict, Bool.or_eq_true, anyMeet_iff]
    exact .inl ⟨p, hp, q, hq, (Span.meets_iff _ _).mpr ⟨a, ⟨h1, h2⟩, h3, h4⟩⟩
  simp [this] at h

@[simp] theorem dnctlHardwired_withBothModes (r : Word) : dnctlHardwired (withBothModes r) = 3#32 := by
  unfold dnctlHardwired withBothModes
  refine BitVec.eq_of_getLsbD_eq fun i hi => ?_
  by_cases h : i = 0
  · subst h; simp
  · by_cases h' : i = 1
    · subst h'; simp
    · have : (3#32).getLsbD i = false := by interval_cases i <;> simp_all
      simp [this]

/-- The control registers after a command. -/
theorem effect_dnctl (i : Instr) (s : State) :
    (effect i s).dnctl =
      bif i == .dnen && s.cfg.dnSupported then s.dnctl.set (dnctlIndex s.cfg s.cur) 3#32 else s.dnctl := by
  by_cases hi : i = .dnen
  · subst hi
    by_cases h : s.cfg.dnSupported = true <;> simp [effect, enableDenormalMode, h]
  · have : (i == Instr.dnen) = false := by simpa using hi
    rw [effect_dnctl_of_ne_dnen _ hi, this]; rfl

end Sys2Proof.Machine
end

