-- ==== Sys2Proof/Machine/Listing.lean ====
section
/-! DEFINITION. The listing syntax of 30_encoding.md rule R44: how a command is written as one line of text. It has no
part in what the machine does. -/

namespace Sys2Proof.Machine

/-- One hexadecimal digit. -/
def hexDigit (n : Nat) : Char := "0123456789ABCDEF".toList.getD n '0'

/-- An address: `0x` and eight hexadecimal digits, the most significant first. -/
def hexWord (w : Word) : List Char :=
  '0' :: 'x' :: ([7, 6, 5, 4, 3, 2, 1, 0].map fun k => hexDigit (w.toNat / 16 ^ k % 16))

/-- The decimal digits of a number, most significant first, at most `fuel` of them. -/
def decimalFuel : Nat → Nat → List Char
  | 0, _ => []
  | fuel + 1, n => (if n < 10 then [] else decimalFuel fuel (n / 10)) ++ [hexDigit (n % 10)]

/-- A count in decimal; ten digits hold every 32-bit number. -/
def decimal (n : Nat) : List Char := decimalFuel 10 n

/-- The operands of a format `T` listing. -/
def Transfer.listing (x : Transfer) : List Char :=
  "ch=".toList ++ decimal x.ch.toNat ++ ", frames=".toList ++ decimal x.frames.toNat ++ ", pcm=".toList
    ++ hexWord x.pcm ++ ", planes=[".toList ++ ((x.planes.map hexWord).intersperse ", ".toList).flatten
    ++ "]".toList

/-- The line of a command (30 R44). -/
def Instr.listing : Instr → List Char
  | .ilv x  => "ILV ".toList ++ Transfer.listing x
  | .dilv x => "DILV ".toList ++ Transfer.listing x
  | .dnen   => "DNEN".toList

/-- The line of a command with the context prefix `t<n>:` (30 R44). -/
def Instr.listingOn (t : Nat) (i : Instr) : List Char :=
  't' :: decimal t ++ ": ".toList ++ Instr.listing i

end Sys2Proof.Machine
end

