-- ==== Sys2Proof/Tests/Slice0.lean ====
section
/-! SUPPORT. Tests: the check of well-formedness, words written out from 30_encoding.md, vectors and small programs of
95_test_vectors.md, and for every obligation with hypotheses a state and operands that meet them together. -/

namespace Sys2Proof.Tests

open Sys2Proof.Machine Sys2Proof.Safety

/-! ### The check of well-formedness -/

theorem test_wf_ilv : (Instr.ilv ⟨2#16, 3#32, 0x2000#32, [0x1000#32, 0x1100#32]⟩).wf = true := by decide

theorem test_wf_refuses_short_ilv : (Instr.ilv ⟨2#16, 3#32, 0x2000#32, [0x1000#32]⟩).wf = false := by decide

theorem test_wf_refuses_long_dilv : (Instr.dilv ⟨0#16, 3#32, 0x2000#32, [0x1000#32]⟩).wf = false := by decide

/-! ### Decoding: words assembled field by field from 30 R36 and R37, then the vectors E1 to E12 -/

/-- `OPC = 0x01`, `RSV0 = 0`, `CH = 2`, `FRAMES = 3`, `PCM_BASE`, two plane bases. -/
theorem test_decode_ilv_fields :
    decode [0b00000001#8 ++ 0b00000000#8 ++ 0b0000000000000010#16, 3#32, 0x2000#32, 0x1000#32, 0x1100#32] =
      .ok (.ilv ⟨2#16, 3#32, 0x2000#32, [0x1000#32, 0x1100#32]⟩, []) := by decide

/-- `OPC = 0x02`, `RSV0 = 0`, `CH = 1`, `FRAMES = 1024`, `PCM_BASE`, one plane base; the word after it stays. -/
theorem test_decode_dilv_fields :
    decode [0b00000010#8 ++ 0b00000000#8 ++ 0b0000000000000001#16, 1024#32, 0x8000#32, 0x10000#32, 7#32] =
      .ok (.dilv ⟨1#16, 1024#32, 0x8000#32, [0x10000#32]⟩, [7#32]) := by decide

/-- `OPC = 0x03`, `RSV1 = 0`, `EN = 1`. -/
theorem test_decode_dnen_fields :
    decode [0b00000011#8 ++ 0b00000000000000000000000#23 ++ 0b1#1] = .ok (.dnen, []) := by decide

/-- E5 to E11 of 95_test_vectors.md section 5, and E12: word 0 of the longest command announces 65538 words. -/
theorem test_decode_vectors :
    [0x00000000#32, 0x04000000#32, 0xFF000001#32, 0x03000000#32, 0x03000003#32, 0x01010002#32].map
        (fun w => decode [w, 0#32]) = List.replicate 6 (.error .reservedEncoding) ∧
      decode [0x01000000#32, 1#32, 0x2000#32] = .ok (.ilv ⟨0#16, 1#32, 0x2000#32, []⟩, []) ∧
      commandLength 0x0100FFFF#32 = 65538 := by decide

/-- The opcode table's numbering: 96 bits, word 0 in bits 31..0; and the step that the host asks for. -/
theorem test_decodeTableWord :
    decodeTableWord 96 0x000020000000000301000000 = some (.ilv ⟨0#16, 3#32, 0x2000#32, []⟩) ∧
      decodeTableWord 32 0x03000001 = some .dnen ∧ decodeTableWord 32 0x03000000 = none := by decide

/-- The listing of 30 R44 for the worked encoding of 30 R47. -/
theorem test_listing :
    Instr.listing (.ilv ⟨2#16, 3#32, 0x2000#32, [0x1000#32, 0x1100#32]⟩) =
        "ILV ch=2, frames=3, pcm=0x00002000, planes=[0x00001000, 0x00001100]".toList ∧
      Instr.listingOn 1 .dnen = "t1: DNEN".toList := by decide +kernel

/-! ### The per-sample functions (95_test_vectors.md sections 1, 2 and 3) -/

/-- A vectorized instance with profile `X86_LIKE`. -/
def vectorized (tie : Tie) : Cfg := { Cfg.specDefault with variant := .vectorized, tie := tie }.withProfile .x86Like

/-- Rows of section 2: pattern, result under `AWAY`, result under `EVEN` (V1 to V24). -/
def ilvVectors : List (Word × Int × Int) :=
  [(0x3F800000#32, 32767, 32767), (0xBF800000#32, -32768, -32768), (0x38000000#32, 1, 1), (0xB8000000#32, -1, -1),
   (0x37800000#32, 1, 0), (0xB7800000#32, -1, 0), (0x38400000#32, 2, 2), (0x38A00000#32, 3, 2),
   (0xB8A00000#32, -3, -2), (0x38E00000#32, 4, 4), (0x377FFFFF#32, 0, 0), (0xB77FFFFF#32, 0, 0),
   (0x37800001#32, 1, 1), (0x00000001#32, 0, 0), (0x80000001#32, 0, 0), (0x007FFFFF#32, 0, 0),
   (0x00800000#32, 0, 0), (0x00000000#32, 0, 0), (0x80000000#32, 0, 0), (0x7F7FFFFF#32, 32767, 32767),
   (0xFF7FFFFF#32, -32768, -32768), (0x3F7FFFFF#32, 32767, 32767), (0x3F7FFE00#32, 32767, 32767),
   (0x3F7FFD00#32, 32767, 32766)] ++
  -- V25 to V42 and V49, then S6 and S7
  [(0x3F7FFE80#32, 32767, 32767), (0x3F7FFF00#32, 32767, 32767), (0x3F7FFB00#32, 32766, 32766),
   (0xBF7FFF00#32, -32768, -32768), (0xBF7FFD00#32, -32767, -32766), (0xBF800080#32, -32768, -32768),
   (0xBF800001#32, -32768, -32768), (0x40000000#32, 32767, 32767), (0xC0000000#32, -32768, -32768),
   (0x47800000#32, 32767, 32767), (0x3F000000#32, 16384, 16384), (0xBF000000#32, -16384, -16384),
   (0x3E800000#32, 8192, 8192), (0xBE800000#32, -8192, -8192), (0x3F400000#32, 24576, 24576),
   (0x3DCCCCCD#32, 3277, 3277), (0xBDCCCCCD#32, -3277, -3277), (0x3089705F#32, 0, 0),
   (0xBF7FFE80#32, -32767, -32767), (0x383FFEED#32, 1, 1), (0x38400113#32, 2, 2)]

theorem test_f2p_finite :
    (∀ v ∈ ilvVectors, f2p Cfg.specDefault 0#32 v.1 = v.2.1 ∧ f2p (vectorized .away) 3#32 v.1 = v.2.1) ∧
      ∀ v ∈ ilvVectors, f2p (vectorized .even) 0#32 v.1 = v.2.2 ∧ f2p (vectorized .even) 3#32 v.1 = v.2.2 := by
  decide +kernel

/-- V43 to V48, with S13 and S14, under `X86_LIKE`. -/
theorem test_f2p_special :
    [0x7F800000#32, 0xFF800000#32, 0x7FC00000#32, 0x7F800001#32, 0xFFC00000#32, 0x7FFFFFFF#32].map
      (f2p (vectorized .even) 0#32) = [-32768, -32768, 32767, 32767, 32767, 32767] := by decide +kernel

/-- W1 to W22 of section 3. -/
theorem test_p2f :
    [0x0000#16, 0x0001#16, 0xFFFF#16, 0x0002#16, 0xFFFE#16, 0x0003#16, 0xFFFD#16, 0x0064#16, 0xFF9C#16, 0x00FF#16,
     0x0100#16, 0x0CCD#16, 0x1234#16, 0x2000#16, 0xE000#16, 0x3039#16, 0xCFC7#16, 0x4000#16, 0xC000#16, 0x7FFF#16,
     0x8001#16, 0x8000#16].map p2f =
    [0x00000000#32, 0x38000000#32, 0xB8000000#32, 0x38800000#32, 0xB8800000#32, 0x38C00000#32, 0xB8C00000#32,
     0x3B480000#32, 0xBB480000#32, 0x3BFF0000#32, 0x3C000000#32, 0x3DCCD000#32, 0x3E11A000#32, 0x3E800000#32,
     0xBE800000#32, 0x3EC0E400#32, 0xBEC0E400#32, 0x3F000000#32, 0xBF000000#32, 0x3F7FFE00#32, 0xBF7FFE00#32,
     0xBF800000#32] := by decide +kernel

/-! ### The checks (95_test_vectors.md section 6) -/

def spans : List Span := [⟨0x1000, 16⟩, ⟨0x1100, 16⟩, ⟨0x2000, 16⟩]

def cmd (ch : BitVec 16) (frames pcm : Word) (planes : List Word) : Transfer := ⟨ch, frames, pcm, planes⟩

/-- F1 to F6, F8, F9, F13 and F14. -/
theorem test_ilv_checks :
    [cmd 2 2 0x2000 [0x1000, 0x1100], cmd 2 4 0x2000 [0x1000, 0x1100], cmd 2 5 0x2000 [0x1000, 0x1100],
     cmd 2 0 0x2000 [0x1000, 0x1100], cmd 2 2 0x0000 [0x1000, 0x1100], cmd 2 2 0x2001 [0x1000, 0x1100],
     cmd 1 2 0x1000 [0x1000], cmd 2 2 0x2000 [0x1000, 0x1000], cmd 1 2 0x3000 [0x1000], cmd 0 0 0x0000 []].map
      (fun x => breachOf (.ilv x) spans) =
    [none, none, some .capacity, some .zeroCount, some .nullBuffer, some .misaligned, some .overlap, none,
     some .capacity, some .zeroCount] := by decide +kernel

/-- F7, F10, F11 and F12. -/
theorem test_dilv_checks :
    [cmd 2 2 0x2000 [0x1000, 0x1102], cmd 2 2 0x2000 [0x1000, 0x1000], cmd 2 2 0x2000 [0x1000, 0x1004],
     cmd 2 1 0x2000 [0x1000, 0x1004]].map (fun x => breachOf (.dilv x) spans) =
    [some .misaligned, some .overlap, some .overlap, none] := by decide +kernel

/-- D10: a plane across two adjacent spans is within capacity when every element lies inside one of them, and not when
an element lies across the border. -/
theorem test_capacity_by_element :
    breachOf (.ilv (cmd 1 4 0x2000 [0x1000])) [⟨0x1000, 8⟩, ⟨0x1008, 8⟩, ⟨0x2000, 8⟩] = none ∧
      breachOf (.ilv (cmd 1 4 0x2000 [0x1000])) [⟨0x1000, 6⟩, ⟨0x1006, 10⟩, ⟨0x2000, 8⟩] = some .capacity := by
  decide +kernel

/-! ### One step on a small state -/

/-- Memory with some bytes from an address on. -/
def poke (a : Nat) (bytes : List Nat) (m : Memory) : Memory :=
  (List.range bytes.length).foldl (fun m k => m.write (a + k) (BitVec.ofNat 8 (bytes.getD k 0))) m

/-- The bytes from an address on after a step; none where the step gives no next state. -/
def bytesAfter (r : Result) (a n : Nat) : List Nat :=
  match r with
  | .next s => (List.range n).map fun k => (s.mem.read (a + k)).toNat
  | _       => []

/-- The control registers after a step. -/
def dnctlAfter (r : Result) : List Word :=
  match r with
  | .next s => s.dnctl
  | _       => []

/-- A live instance over the three spans of 16 bytes. -/
def instanceOn (cfg : Cfg) (mem : Memory) : State := State.resetWith cfg spans mem

/-- The planes of program P2. -/
def p2Planes : Memory :=
  poke 0x1000 [0x00, 0x00, 0x80, 0x3F, 0x00, 0x00, 0x80, 0x37, 0x00, 0x00, 0xA0, 0x38, 0x00, 0x00, 0x80, 0x7F]
    (poke 0x1100 [0x00, 0x00, 0x80, 0xBF, 0x00, 0x00, 0x80, 0xB7, 0x01, 0x00, 0x00, 0x00, 0x00, 0x00, 0xC0, 0x7F] [])

/-- P2, first row: `AWAY`, profile `SAT`. -/
theorem test_ilv_p2_away :
    bytesAfter (exec (.ilv (cmd 2 4 0x2000 [0x1000, 0x1100])) (instanceOn Cfg.specDefault p2Planes)) 0x2000 16 =
      [0xFF, 0x7F, 0x00, 0x80, 0x01, 0x00, 0xFF, 0xFF, 0x03, 0x00, 0x00, 0x00, 0xFF, 0x7F, 0x00, 0x00] := by
  decide +kernel

/-- P2, third row: `EVEN`, profile `X86_LIKE`. -/
theorem test_ilv_p2_even :
    bytesAfter (exec (.ilv (cmd 2 4 0x2000 [0x1000, 0x1100])) (instanceOn (vectorized .even) p2Planes)) 0x2000 16 =
      [0xFF, 0x7F, 0x00, 0x80, 0x00, 0x00, 0x00, 0x00, 0x02, 0x00, 0x00, 0x00, 0x00, 0x80, 0xFF, 0x7F] := by
  decide +kernel

/-- The PCM buffer of program P1. -/
def p1Pcm : Memory := poke 0x2000 [0x01, 0x00, 0xFF, 0xFF, 0xFF, 0x7F, 0x00, 0x80, 0x00, 0x00, 0x39, 0x30] []

/-- P1: plane 0. -/
theorem test_dilv_p1_plane0 :
    bytesAfter (exec (.dilv (cmd 2 3 0x2000 [0x1000, 0x1100])) (instanceOn Cfg.specDefault p1Pcm)) 0x1000 12 =
      [0x00, 0x00, 0x00, 0x38, 0x00, 0xFE, 0x7F, 0x3F, 0x00, 0x00, 0x00, 0x00] := by decide +kernel

/-- P1: plane 1. -/
theorem test_dilv_p1_plane1 :
    bytesAfter (exec (.dilv (cmd 2 3 0x2000 [0x1000, 0x1100])) (instanceOn Cfg.specDefault p1Pcm)) 0x1100 12 =
      [0x00, 0x00, 0x00, 0xB8, 0x00, 0x00, 0x80, 0xBF, 0x00, 0xE4, 0xC0, 0x3E] := by decide +kernel

/-- Section 4, X1: own registers. -/
theorem test_dnen_x1 :
    dnctlAfter (exec .dnen (instanceOn { Cfg.specDefault with nctx := 2 } [])) = [3#32, 0#32] := by decide

/-- Section 4, X3 and X4: one shared register, issued by context 1; and a mode that is not supported. -/
theorem test_dnen_x3_x4 :
    dnctlAfter (exec .dnen ((instanceOn { Cfg.specDefault with nctx := 2, dnScope := .shared } []).setCur 1)) = [3#32] ∧
      dnctlAfter (exec .dnen (instanceOn { Cfg.specDefault with dnSupported := false } [])) = [0#32] := by decide

/-- The host's question: the command placed by `withFetchWord` is the first that runs after reset. -/
theorem test_withFetchWord :
    dnctlAfter (step (State.reset.withFetchWord 32 0x03000001)) = [3#32] ∧
      bytesAfter (step (State.reset.withFetchWord 96 0x000020000000000301000000)) 0x2000 1 = [0] := by decide +kernel

/-! ### Witnesses: for each obligation with hypotheses, a state and operands that meet them together -/

/-- Two contexts, the first executing an `ILV`, the second a `DILV`, on disjoint buffers. -/
def busy (acts : List HostAction) : State :=
  (((instanceOn { Cfg.specDefault with nctx := 2 } p1Pcm).setPort 0
      [0x01000001#32, 2#32, 0x2000#32, 0x1000#32]).setPort 1
    [0x02000001#32, 2#32, 0x2008#32, 0x1100#32]).setInbox acts

def busyIlv : Instr := .ilv (cmd 1 2 0x2000 [0x1000])
def busyDilv : Instr := .dilv (cmd 1 2 0x2008 [0x1100])

theorem busy_executing (acts : List HostAction) (t : Nat) :
    (busy acts).executing t = if t = 0 then some busyIlv else if t = 1 then some busyDilv else none :=
  match t with
  | 0 => rfl
  | 1 => rfl
  | _ + 2 => rfl

theorem witness_inv (acts : List HostAction) : Inv (busy acts) where
  mem_wf := (by decide +kernel : Memory.wf p1Pcm = true)
  shape := ⟨rfl, rfl, rfl, (by decide : 0 < 2)⟩
  dnctl := fun r (hr : r ∈ [0#32, 0#32]) => .inl (by simpa using hr)
  inFlight _ :=
    { ports := fun t =>
        match t with
        | 0 => .inr (.inr ⟨busyIlv, rfl⟩)
        | 1 => .inr (.inr ⟨busyDilv, rfl⟩)
        | _ + 2 => .inl rfl
      checked := by
        intro t i h
        rw [busy_executing] at h
        split at h
        · cases h; exact (by decide +kernel : breachOf busyIlv spans = none)
        · split at h
          · cases h; exact (by decide +kernel : breachOf busyDilv spans = none)
          · simp at h
      disjoint := by
        intro t u i j htu hi hj
        rw [busy_executing] at hi hj
        have h01 : conflict busyIlv busyDilv = false := by decide +kernel
        have h10 : conflict busyDilv busyIlv = false := by decide +kernel
        split at hi
        · split at hj
          · omega
          · split at hj
            · cases hi; cases hj; exact h01
            · simp at hj
        · split at hi
          · split at hj
            · cases hi; cases hj; exact h10
            · split at hj
              · omega
              · simp at hj
          · simp at hi }

/-- Encoding: a command with every field filled, one with none of its planes, and `DNEN`. -/
theorem witness_encode : (Instr.ilv (cmd 2 3 0x2000 [0x1000, 0x1100])).wf = true ∧
    (Instr.dilv (cmd 0 0xFFFFFFFF 0 [])).wf = true ∧ Instr.dnen.wf = true := by decide

/-- Length: the two heads at `CH = 0` and `CH = 2`, one word short and just long enough, and an illegal head. -/
theorem witness_length :
    (0x01000000#32).extractLsb' 16 16 = 0x0100#16 ∧ (0x02000002#32).extractLsb' 16 16 = 0x0200#16 ∧
      decode [0x01000000#32, 1#32] = .error .incomplete ∧
      decode [0x02000002#32, 1#32, 2#32, 4#32] = .error .incomplete ∧
      decode [0x02000002#32, 1#32, 2#32, 4#32, 8#32] = .ok (.dilv (cmd 2 1 2 [4, 8]), []) ∧
      (0x01010002#32).extractLsb' 16 16 ≠ 0x0100#16 ∧ (0x01010002#32).extractLsb' 16 16 ≠ 0x0200#16 ∧
      0x01010002#32 ≠ 0x03000001#32 := by decide

/-- A step runs the decoded command; a command in execution; two that commute. -/
theorem witness_executes (acts : List HostAction) :
    Executes (busy acts) 0 busyIlv ∧ Executes (busy acts) 1 busyDilv ∧ (busy acts).faulted = none ∧
      0 < (busy acts).contexts.length ∧ decode ((busy acts).portWords 0) = .ok (busyIlv, []) :=
  ⟨⟨witness_inv acts, rfl, rfl⟩, ⟨witness_inv acts, rfl, rfl⟩, rfl, (by decide : 0 < 2), rfl⟩

/-- An idle port, and words of every clause of 30 R41 with the legal ones beside them. -/
theorem witness_illegal_words (acts : List HostAction) :
    (instanceOn Cfg.specDefault []).faulted = none ∧ ((instanceOn Cfg.specDefault []).setInbox acts).portWords 0 = [] ∧
      (0x00FFFFFF#32).extractLsb' 24 8 = 0#8 ∧ 4#8 ≤ (0x04000000#32).extractLsb' 24 8 ∧
      (0x01010002#32).extractLsb' 16 8 ≠ 0#8 ∧ (0x03000003#32).extractLsb' 1 23 ≠ 0#23 ∧
      (0x03000000#32).extractLsb' 0 1 = 0#1 ∧
      ¬((0x03000001#32).extractLsb' 1 23 ≠ 0#23 ∨ (0x03000001#32).extractLsb' 0 1 = 0#1) :=
  ⟨rfl, rfl, by decide, by decide, by decide, by decide, by decide, by decide⟩

/-- A port that has collected three of the four words of an `ILV`, and one that has collected two. -/
def collecting (ws : List Word) (acts : List HostAction) : State :=
  ((instanceOn Cfg.specDefault []).setPort 0 ws).setInbox acts

theorem witness_port_collects (acts : List HostAction) :
    (collecting [0x01000001#32, 2#32] acts).executing 0 = none ∧
      decode ((collecting [0x01000001#32, 2#32] acts).portWords 0 ++ [0x2000#32]) = .error .incomplete ∧
      (collecting [0x01000001#32, 2#32, 0x2000#32] acts).faulted = none ∧
      (collecting [0x01000001#32, 2#32, 0x2000#32] acts).executing 0 = none ∧
      decode ((collecting [0x01000001#32, 2#32, 0x2000#32] acts).portWords 0 ++ [0x1000#32]) = .ok (busyIlv, []) ∧
      breachOf busyIlv (collecting [0x01000001#32, 2#32, 0x2000#32] acts).alloc = none ∧
      (decode ((collecting [0x01000001#32, 2#32, 0x2000#32] acts).portWords 0 ++ [0x3000#32]) =
          .ok (.ilv (cmd 1 2 0x2000 [0x3000]), []) ∧
        breachOf (.ilv (cmd 1 2 0x2000 [0x3000])) (collecting [0x01000001#32, 2#32, 0x2000#32] acts).alloc =
          some .capacity) ∧
      ∀ u j, u ≠ 0 → (collecting [0x01000001#32, 2#32, 0x2000#32] acts).executing u = some j →
        conflict busyIlv j = false :=
  ⟨rfl, rfl, rfl, rfl, rfl, (by decide +kernel : breachOf busyIlv spans = none),
    ⟨rfl, (by decide +kernel : breachOf (.ilv (cmd 1 2 0x2000 [0x3000])) spans = some .capacity)⟩, fun u j hu h =>
    match u, hu, h with
    | 0, hu, _ => absurd rfl hu
    | _ + 1, _, h => absurd (show none = some j from h) (by simp)⟩

/-- A faulted block leaves that state by a reset. -/
theorem witness_faulted :
    ((busy [.reset]).setFaulted .race).faulted = some .race ∧
      step ((busy [.reset]).setFaulted .race) = .next (((busy [.reset]).setFaulted .race).setInbox []).resetBlock :=
  ⟨rfl, rfl⟩

/-- Nothing pending and nothing in execution. -/
theorem witness_idle : State.reset.faulted = none ∧ State.reset.inbox = [] ∧ ∀ t, State.reset.executing t = none :=
  ⟨rfl, rfl, fun t => match t with
    | 0 => rfl
    | _ + 1 => rfl⟩

/-- Host accesses at the first and last byte of a buffer in use and at the byte after it. -/
theorem witness_host_access (acts : List HostAction) :
    InBufferOfRunning bufferSpans (busy acts) 0x1000 ∧ InBufferOfRunning bufferSpans (busy acts) 0x1007 ∧
      ¬InBufferOfRunning bufferSpans (busy acts) 0x1008 ∧ InBufferOfRunning writeSpans (busy acts) 0x2003 ∧
      ¬InBufferOfRunning writeSpans (busy acts) 0x1000 := by
  refine ⟨⟨0, busyIlv, (by decide : 0 < 2), rfl, ⟨0x1000, 8⟩, by decide, by decide⟩,
    ⟨0, busyIlv, (by decide : 0 < 2), rfl, ⟨0x1000, 8⟩, by decide, by decide⟩, ?_,
    ⟨0, busyIlv, (by decide : 0 < 2), rfl, ⟨0x2000, 4⟩, by decide, by decide⟩, ?_⟩
  · rintro ⟨t, i, -, h, hs⟩
    rw [busy_executing] at h
    split at h
    · cases h; revert hs; decide
    · split at h
      · cases h; revert hs; decide
      · simp at h
  · rintro ⟨t, i, -, h, hs⟩
    rw [busy_executing] at h
    split at h
    · cases h; revert hs; decide
    · split at h
      · cases h; revert hs; decide
      · simp at h

/-- A conflicting command about to begin: an `ILV` of context 0 that would read the plane context 1 writes; both
have the byte 0x1104. -/
theorem witness_conflict (acts : List HostAction) :
    ((busy acts).setPort 0 [0x01000001#32, 1#32, 0x2000#32]).faulted = none ∧
      ((busy acts).setPort 0 [0x01000001#32, 1#32, 0x2000#32]).executing 0 = none ∧
      decode ([0x01000001#32, 1#32, 0x2000#32] ++ [0x1104#32]) = .ok (.ilv (cmd 1 1 0x2000 [0x1104]), []) ∧
      breachOf (.ilv (cmd 1 1 0x2000 [0x1104])) spans = none ∧
      ((busy acts).setPort 0 [0x01000001#32, 1#32, 0x2000#32]).executing 1 = some busyDilv ∧
      (⟨0x1104, 4⟩ : Span) ∈ readSpans (.ilv (cmd 1 1 0x2000 [0x1104])) ∧ (⟨0x1100, 8⟩ : Span) ∈ writeSpans busyDilv ∧
      (0x1104 < 0x1104 + 4 ∧ 0x1100 ≤ 0x1104 ∧ 0x1104 < 0x1100 + 8) :=
  ⟨rfl, rfl, rfl, by decide +kernel, rfl, by decide, by decide, by decide⟩

/-- The other way to conflict: an `ILV` of context 0 that would write the PCM buffer context 1 reads; both have the
byte 0x2008. -/
theorem witness_conflict_write (acts : List HostAction) :
    ((busy acts).setPort 0 [0x01000001#32, 1#32, 0x2008#32]).executing 0 = none ∧
      decode ([0x01000001#32, 1#32, 0x2008#32] ++ [0x1000#32]) = .ok (.ilv (cmd 1 1 0x2008 [0x1000]), []) ∧
      breachOf (.ilv (cmd 1 1 0x2008 [0x1000])) spans = none ∧
      ((busy acts).setPort 0 [0x01000001#32, 1#32, 0x2008#32]).executing 1 = some busyDilv ∧
      (⟨0x2008, 2⟩ : Span) ∈ writeSpans (.ilv (cmd 1 1 0x2008 [0x1000])) ∧
      (⟨0x2008, 4⟩ : Span) ∈ bufferSpans busyDilv ∧ (0x2008 < 0x2008 + 2 ∧ 0x2008 < 0x2008 + 4) :=
  ⟨rfl, rfl, by decide +kernel, rfl, by decide, by decide, by decide⟩

/-- Spans of `ALLOC` that a command in execution uses and that none uses, and a span that is not in `ALLOC`. -/
theorem witness_destroy (acts : List HostAction) :
    (⟨0x1000, 16⟩ : Span) ∈ (busy acts).alloc ∧ InBufferOfRunning bufferSpans (busy acts) 0x1007 ∧
      (⟨0x1000, 16⟩ : Span) ∈ (collecting [] acts).alloc ∧
      (∀ a, ¬InBufferOfRunning bufferSpans (collecting [] acts) a) ∧ (⟨0x1000, 8⟩ : Span) ∉ (busy acts).alloc := by
  refine ⟨(by decide : _ ∈ spans), ⟨0, busyIlv, (by decide : 0 < 2), rfl, ⟨0x1000, 8⟩, by decide, by decide⟩,
    (by decide : _ ∈ spans), ?_, (by decide : _ ∉ spans)⟩
  rintro a ⟨t, i, -, h, -⟩
  match t, h with
  | 0, h => exact absurd (show none = some i from h) (by simp)
  | _ + 1, h => exact absurd (show none = some i from h) (by simp)

/-- A step that keeps the invariant, changes memory and takes a host action. -/
theorem witness_step :
    step (busy [.advance 0]) = .next (effect busyIlv (((busy [.advance 0]).setInbox []).setCur 0)).complete ∧
      (effect busyDilv (((busy []).setInbox []).setCur 1)).mem.read 0x1107 = 0x3E#8 ∧
      (busy []).mem.read 0x1107 = 0#8 :=
  ⟨exec_ok (i := busyIlv) (s := ((busy [.advance 0]).setInbox []).setCur 0) rfl (by decide) (by decide +kernel),
    by decide +kernel, by decide +kernel⟩

/-- A step that changes a control register. -/
theorem witness_dnctl_changes :
    dnctlAfter (step (((instanceOn Cfg.specDefault []).setPort 0 [0x03000001#32]).setInbox [.advance 0])) ≠
      (instanceOn Cfg.specDefault []).dnctl := by decide

/-- Configurations and memories that the reset invariant starts from. -/
theorem witness_reset : (vectorized .even).wf = true ∧ Cfg.specDefault.wf = true ∧
    ({ Cfg.specDefault with nctx := 0 } : Cfg).wf = false ∧ Memory.wf p2Planes = true := by decide +kernel

/-- Each line of 40 R49 fails first for some command (F4, F5, F6, F3 and F8). -/
theorem witness_ilv_checks (x : Transfer) (hx : x.wf = true) :
    Issued x (instanceOn Cfg.specDefault []) ∧ ¬CountsPositive (cmd 2 0 0x2000 [0x1000, 0x1100]) ∧
      (CountsPositive (cmd 1 1 0 [0x1000]) ∧ ¬NoNull (cmd 1 1 0 [0x1000])) ∧
      (CountsPositive (cmd 1 1 0x2001 [0x1000]) ∧ NoNull (cmd 1 1 0x2001 [0x1000]) ∧ ¬Aligned (cmd 1 1 0x2001 [0x1000])) ∧
      (CountsPositive (cmd 1 5 0x2000 [0x1000]) ∧ NoNull (cmd 1 5 0x2000 [0x1000]) ∧ Aligned (cmd 1 5 0x2000 [0x1000]) ∧
        ¬BuffersOwned (cmd 1 5 0x2000 [0x1000]) spans) ∧
      (BasicContract (cmd 1 2 0x1004 [0x1000]) spans ∧ ¬OutputApart (cmd 1 2 0x1004 [0x1000])) := by
  refine ⟨⟨hx, rfl, by decide⟩, by unfold CountsPositive; decide +kernel, ?_, ?_, ?_, ?_⟩
  · unfold CountsPositive NoNull; decide +kernel
  · refine ⟨by unfold CountsPositive; decide +kernel, (noNull_iff _).mpr (by decide +kernel), ?_⟩
    rw [aligned_iff, not_not]; decide +kernel
  · refine ⟨by unfold CountsPositive; decide +kernel, (noNull_iff _).mpr (by decide +kernel),
      (aligned_iff _).mpr (by decide +kernel), ?_⟩
    rw [buffersOwned_iff, not_not]; decide +kernel
  · rw [← commonBreach_none_iff, ← outputApart_iff]; decide +kernel

/-- Everything `ILV` checks holds, in a state with nothing else to wish for (F2); the planes may be equal (F9). -/
theorem witness_ilv_ready : IlvReady (cmd 2 4 0x2000 [0x1000, 0x1100]) (instanceOn Cfg.specDefault p2Planes) ∧
    IlvReady (cmd 2 2 0x2000 [0x1000, 0x1000]) (instanceOn Cfg.specDefault p2Planes) := by
  have h1 := (ilvBreach_none_iff (cmd 2 4 0x2000 [0x1000, 0x1100]) spans).mp (by decide +kernel)
  have h2 := (ilvBreach_none_iff (cmd 2 2 0x2000 [0x1000, 0x1000]) spans).mp (by decide +kernel)
  exact ⟨⟨⟨by decide, rfl, by decide⟩, h1.1, h1.2⟩, ⟨⟨by decide, rfl, by decide⟩, h2.1, h2.2⟩⟩

/-- Everything `DILV` checks holds (F12 and P1), and its last line fails for some command (F11). -/
theorem witness_dilv_ready : DilvReady (cmd 2 1 0x2000 [0x1000, 0x1004]) (instanceOn Cfg.specDefault p1Pcm) ∧
    DilvReady (cmd 2 3 0x2000 [0x1000, 0x1100]) (instanceOn Cfg.specDefault p1Pcm) ∧
    BasicContract (cmd 2 2 0x2000 [0x1000, 0x1004]) spans ∧ ¬PlanesApart (cmd 2 2 0x2000 [0x1000, 0x1004]) := by
  have h1 := (dilvBreach_none_iff (cmd 2 1 0x2000 [0x1000, 0x1004]) spans).mp (by decide +kernel)
  have h2 := (dilvBreach_none_iff (cmd 2 3 0x2000 [0x1000, 0x1100]) spans).mp (by decide +kernel)
  refine ⟨⟨⟨by decide, rfl, by decide⟩, h1.1, h1.2.1, h1.2.2⟩, ⟨⟨by decide, rfl, by decide⟩, h2.1, h2.2.1, h2.2.2⟩, ?_, ?_⟩
  · rw [← commonBreach_none_iff]; decide +kernel
  · rw [← planesApart_iff]; decide +kernel

/-- A next state of each converter, and an order of the elements other than the model's. -/
theorem witness_exec_next :
    (∃ s', exec (.ilv (cmd 2 4 0x2000 [0x1000, 0x1100])) (instanceOn Cfg.specDefault p2Planes) = .next s') ∧
    (∃ s', exec (.dilv (cmd 2 3 0x2000 [0x1000, 0x1100])) (instanceOn Cfg.specDefault p1Pcm) = .next s') ∧
    (∃ s', exec .dnen (instanceOn Cfg.specDefault []) = .next s') ∧
    ((elements (cmd 2 1 0x2000 [0x1000, 0x1004])).reverse).Perm (elements (cmd 2 1 0x2000 [0x1000, 0x1004])) :=
  ⟨⟨_, exec_ok rfl (by decide) (by decide +kernel)⟩, ⟨_, exec_ok rfl (by decide) (by decide +kernel)⟩, ⟨_, rfl⟩,
    List.reverse_perm _⟩

/-- Special samples: a NaN; finite samples at the clamp's bounds and beyond them. -/
theorem witness_special : (bexp 0x7FC00000#32 = 255 ∧ frac 0x7FC00000#32 ≠ 0) ∧
    (isFinite 0x7F7FFFFF#32 = true ∧ 32767 ≤ val 0x7F7FFFFF#32 * 32768 ∧ 32767 ≤ val 0x3F7FFE00#32 * 32768) ∧
    (isFinite 0xFF7FFFFF#32 = true ∧ val 0xFF7FFFFF#32 * 32768 ≤ -32768 ∧ val 0xBF800000#32 * 32768 ≤ -32768) := by decide +kernel

/-- In range and no tie, at both bounds: -32768 and 32767 scaled. -/
theorem witness_not_tie : (isFinite 0xBF800000#32 = true ∧ -32768 ≤ val 0xBF800000#32 * 32768 ∧
      val 0xBF800000#32 * 32768 ≤ 32767 ∧ ∀ n : Int, val 0xBF800000#32 * 32768 ≠ n + 1 / 2) ∧
    (isFinite 0x3F7FFE00#32 = true ∧ val 0x3F7FFE00#32 * 32768 ≤ 32767 ∧
      ∀ n : Int, val 0x3F7FFE00#32 * 32768 ≠ n + 1 / 2) := by
  have h : ∀ w : Word, isTie (val w * 32768) = false → ∀ n : Int, val w * 32768 ≠ n + 1 / 2 := by
    intro w hw n hn
    have := (isTie_iff _).mpr ⟨n, hn⟩
    simp [hw] at this
  exact ⟨⟨by decide +kernel, by decide +kernel, by decide +kernel, h _ (by decide +kernel)⟩,
    by decide +kernel, by decide +kernel, h _ (by decide +kernel)⟩

/-- Ties in range: the lowest, -1/2, 1/2 and the highest; both clauses of the policy. -/
theorem witness_tie :
    (isFinite 0xBF7FFF00#32 = true ∧ val 0xBF7FFF00#32 * 32768 = (-32768 : Int) + 1 / 2) ∧
      val 0xB7800000#32 * 32768 = (-1 : Int) + 1 / 2 ∧ val 0x37800000#32 * 32768 = (0 : Int) + 1 / 2 ∧
      val 0x3F7FFD00#32 * 32768 = (32766 : Int) + 1 / 2 ∧ val 0x3F7FFD00#32 * 32768 ≤ 32767 ∧
      (vectorized .even).variant = .vectorized ∧ (vectorized .even).tie = .even := by decide +kernel

/-- Samples that give 0: the largest subnormal, -0, and the largest pattern below `2^-16`. -/
theorem witness_tiny : bexp 0x007FFFFF#32 = 0 ∧ bexp 0x80000000#32 = 0 ∧ isFinite 0x377FFFFF#32 = true ∧
    -(1 / 65536) < val 0x377FFFFF#32 ∧ val 0x377FFFFF#32 < 1 / 65536 ∧ val 0x00000001#32 ≤ val 0x377FFFFF#32 := by
  decide +kernel

/-- Both hypotheses on samples of `P2f`. -/
theorem witness_p2f : (0x8000#16).toInt < (0x7FFF#16).toInt ∧ (0x0001#16) ≠ 0#16 := by decide

/-- `DILV` into planes and `ILV` from the same planes into the rest of the PCM buffer. -/
theorem witness_copy : DilvReady (cmd 1 2 0x2000 [0x1000]) (instanceOn Cfg.specDefault p1Pcm) ∧
    IlvReady (cmd 1 2 0x2008 [0x1000]) (instanceOn Cfg.specDefault p1Pcm) := by
  have h1 := (dilvBreach_none_iff (cmd 1 2 0x2000 [0x1000]) spans).mp (by decide +kernel)
  have h2 := (ilvBreach_none_iff (cmd 1 2 0x2008 [0x1000]) spans).mp (by decide +kernel)
  exact ⟨⟨⟨by decide, rfl, by decide⟩, h1.1, h1.2.1, h1.2.2⟩, ⟨⟨by decide, rfl, by decide⟩, h2.1, h2.2⟩⟩

/-- Every clause about `DNEN`: own and shared registers, supported and not. -/
theorem witness_dnen :
    Shape (instanceOn { Cfg.specDefault with nctx := 2 } []) ∧
      Shape (instanceOn { Cfg.specDefault with nctx := 2, dnScope := .shared } []) ∧
      Shape (instanceOn { Cfg.specDefault with dnSupported := false } []) ∧ ∀ cfg, (instanceOn cfg []).faulted = none :=
  ⟨⟨by decide, rfl, rfl, by decide⟩, ⟨by decide, rfl, rfl, by decide⟩, ⟨by decide, rfl, rfl, by decide⟩, fun _ => rfl⟩

end Sys2Proof.Tests
end

section
/-! SUPPORT. `CFG` over a whole step (00 R7, D34): what the host's accesses can do, one inversion lemma each, and that
no operation of a step writes the configuration. -/

namespace Sys2Proof.Machine

/-! ### The host's accesses -/

/-- All that a host read can do (20 R31). -/
theorem hostLoad_next {a : Word} {s s' : State} (h : hostLoad a s = .next s') :
    ∃ js, js = s.allExecuting.filter (fun i => (writeSpans i).any fun sp => sp.has a.toNat) ∧
      (js = [] ∧ s' = s ∨ js ≠ [] ∧ raiseRace (js.flatMap bufferSpans) s = .next s') := by
  refine ⟨_, rfl, ?_⟩
  unfold hostLoad at h
  split at h
  · next hnil => exact .inl ⟨hnil, by simpa using h.symm⟩
  · next hne => exact .inr ⟨hne, h⟩

/-- All that a host write can do (20 R31). -/
theorem hostStore_next {a : Word} {b : Byte} {s s' : State} (h : hostStore a b s = .next s') :
    ∃ js, js = s.allExecuting.filter (fun i => (bufferSpans i).any fun sp => sp.has a.toNat) ∧
      (js = [] ∧ s' = s.setMem (s.mem.write a.toNat b) ∨
        js ≠ [] ∧ raiseRace (js.flatMap bufferSpans) s = .next s') := by
  refine ⟨_, rfl, ?_⟩
  unfold hostStore at h
  split at h
  · next hnil => exact .inl ⟨hnil, by simpa using h.symm⟩
  · next hne => exact .inr ⟨hne, h⟩

/-- All that destroying a buffer can do (70 R104). -/
theorem hostDestroy_next {sp : Span} {s s' : State} (h : hostDestroy sp s = .next s') :
    (sp ∉ s.alloc ∧ s' = s) ∨
      sp ∈ s.alloc ∧ ∃ js, js = s.allExecuting.filter (fun i => (bufferSpans i).any sp.meets) ∧
        (js = [] ∧ s' = s.setAlloc (s.alloc.filter fun q => q != sp) ∨
          js ≠ [] ∧ raiseRace (js.flatMap bufferSpans) s = .next s') := by
  unfold hostDestroy at h
  split at h
  · next hm =>
    refine .inr ⟨by simpa using hm, _, rfl, ?_⟩
    split at h
    · next hnil => exact .inl ⟨hnil, by simpa using h.symm⟩
    · next hne => exact .inr ⟨hne, h⟩
  · next hm => exact .inl ⟨by simpa using hm, by simpa using h.symm⟩

/-! ### Nothing writes `CFG` -/

theorem raiseRace_cfg {bufs : List Span} {s s' : State} (h : raiseRace bufs s = .next s') : s'.cfg = s.cfg := by
  obtain ⟨s₁, h₁, -, hcfg, -⟩ := raiseRace_next bufs s
  obtain rfl : s₁ = s' := by simpa [h₁] using h
  exact hcfg

theorem exec_cfg {i : Instr} {s s' : State} (h : exec i s = .next s') : s'.cfg = s.cfg := by
  obtain ⟨-, -, ⟨r, -, rfl⟩ | ⟨-, rfl⟩⟩ := exec_next h
  · simp
  · simp

theorem runContext_cfg {t : Nat} {s s' : State} (h : runContext t s = .next s') : s'.cfg = s.cfg := by
  obtain ⟨i, -, hx⟩ | ⟨r, rfl⟩ | rfl := runContext_next h
  · simpa using exec_cfg hx
  · simp
  · rfl

theorem acceptWord_cfg {t : Nat} {w : Word} {s s' : State} (h : acceptWord t w s = .next s') :
    s'.cfg = s.cfg := by
  obtain ⟨ws, -, ⟨r, rfl⟩ | ⟨-, rfl⟩ | ⟨i, rest, -, -, ⟨-, rfl⟩ | ⟨js, -, -, hrace⟩⟩⟩ := acceptWord_next h
  · simp
  · simp
  · simp
  · simpa using raiseRace_cfg hrace

theorem hostLoad_cfg {a : Word} {s s' : State} (h : hostLoad a s = .next s') : s'.cfg = s.cfg := by
  obtain ⟨js, -, ⟨-, rfl⟩ | ⟨-, hrace⟩⟩ := hostLoad_next h
  · rfl
  · exact raiseRace_cfg hrace

theorem hostStore_cfg {a : Word} {b : Byte} {s s' : State} (h : hostStore a b s = .next s') :
    s'.cfg = s.cfg := by
  obtain ⟨js, -, ⟨-, rfl⟩ | ⟨-, hrace⟩⟩ := hostStore_next h
  · simp
  · exact raiseRace_cfg hrace

theorem hostDestroy_cfg {sp : Span} {s s' : State} (h : hostDestroy sp s = .next s') : s'.cfg = s.cfg := by
  obtain ⟨-, rfl⟩ | ⟨-, js, -, ⟨-, rfl⟩ | ⟨-, hrace⟩⟩ := hostDestroy_next h
  · rfl
  · simp
  · exact raiseRace_cfg hrace

theorem step_cfg {s s' : State} (h : step s = .next s') : s'.cfg = s.cfg := by
  cases step_kind h with
  | reset acts inbox result => simp [result]
  | run t acts live ctx result => simpa using runContext_cfg result
  | accept t w acts live ctx inbox idle result => simpa using acceptWord_cfg result
  | load a acts live inbox result => simpa using hostLoad_cfg result
  | store a b acts live inbox result => simpa using hostStore_cfg result
  | create sp acts live inbox result => simp [result]
  | destroy sp acts live inbox result => simpa using hostDestroy_cfg result
  | idle live result => rw [result]

/-- Settles O18, by the kinds of step: each operation that a step can be leaves `CFG` alone. -/
theorem noStepChangesTheConfiguration : Obligations.NoStepChangesTheConfiguration :=
  fun _ _ => step_cfg

end Sys2Proof.Machine
end

section
/-! SUPPORT. `f2p` of the infinities and of the NaNs (40 R54, R55): the constant of `CFG`, and what the constants of the
named profiles are (00 R7). -/

namespace Sys2Proof.Machine

theorem f2p_nan {w : Word} (cfg : Cfg) (dn : Word) (hb : bexp w = 255) (hf : frac w ≠ 0) :
    f2p cfg dn w = cfg.cNan.toInt := by
  have hnan : isNaN w = true := by simp [isNaN, hb, hf]
  rw [f2p, if_pos hnan, sint16_eq_toInt]

theorem f2p_inf {w : Word} (cfg : Cfg) (dn : Word) (hb : bexp w = 255) (hf : frac w = 0) :
    f2p cfg dn w = if sign w then cfg.cNinf.toInt else cfg.cPinf.toInt := by
  have hnan : ¬isNaN w = true := by simp [isNaN, hf]
  have hinf : isInf w = true := by simp [isInf, hb, hf]
  rw [f2p, if_neg hnan, if_pos hinf, sint16_eq_toInt, sint16_eq_toInt]

theorem f2p_posInf (cfg : Cfg) (dn : Word) : f2p cfg dn 0x7F800000#32 = cfg.cPinf.toInt := by
  rw [f2p_inf cfg dn (by decide) (by decide), if_neg (by decide)]

theorem f2p_negInf (cfg : Cfg) (dn : Word) : f2p cfg dn 0xFF800000#32 = cfg.cNinf.toInt := by
  rw [f2p_inf cfg dn (by decide) (by decide), if_pos (by decide)]

/-- Settles O26: `f2p` gives the constants of the configuration, and each profile's are those of the table of 00 R7. -/
theorem profilesGiveTheirConstants : Obligations.ProfilesGiveTheirConstants := by
  intro cfg dn w hb hf
  simp only [f2p_posInf, f2p_negInf, f2p_nan _ _ hb hf, Cfg.withProfile]
  decide

end Sys2Proof.Machine
end

section
/-! SUPPORT. The state family (10_state.md): the kinds of step read as changes of one piece of state each. What a Race
and the command of a context leave, which step writes a control register, which step writes memory, and the reset. -/

namespace Sys2Proof.Machine

open Sys2Proof.Safety

/-! ### Inversions -/

/-- A context executes the command that its port decodes to. -/
theorem executing_eq_some_iff {s : State} {t : Nat} {i : Instr} :
    s.executing t = some i ↔ ∃ rest, decode (s.portWords t) = .ok (i, rest) := by
  unfold State.executing
  split
  · next hd => simp [hd]
  · next hd => simp [hd]

/-- `raiseRace_next`, read off the state that a Race answers. -/
theorem raiseRace_inv {bufs : List Span} {s s' : State} (h : raiseRace bufs s = .next s') :
    s'.faulted = some .race ∧ s'.cfg = s.cfg ∧ s'.dnctl = s.dnctl ∧ s'.contexts = s.contexts ∧ s'.cur = s.cur ∧
      (∀ a, (∀ sp ∈ bufs, ¬(sp.base ≤ a ∧ a < sp.base + sp.len)) → s'.mem.read a = s.mem.read a) ∧
      (Memory.wf s.mem = true → (∀ sp ∈ bufs, sp.base + sp.len ≤ memSize) → Memory.wf s'.mem = true) := by
  obtain ⟨s₁, h₁, hf, hcfg, -, hdn, hctx, hcur, -, hread, hwf⟩ := raiseRace_next bufs s
  obtain rfl : s₁ = s' := by simpa [h₁] using h
  exact ⟨hf, hcfg, hdn, hctx, hcur, hread, hwf⟩

theorem raiseRace_dnctl {bufs : List Span} {s s' : State} (h : raiseRace bufs s = .next s') :
    s'.dnctl = s.dnctl := by
  obtain ⟨-, -, hdn, -⟩ := raiseRace_inv h
  exact hdn

/-! ### Reset (10 R18, 70 R98) -/

/-- Registers that all hold 0 read 0, whichever one `DNCTL[t]` names. -/
theorem State.dnctlOf_eq_zero {s : State} (h : ∀ r ∈ s.dnctl, r = 0#32) (t : Nat) : s.dnctlOf t = 0#32 := by
  have hz : s.dnctl.getD (dnctlIndex s.cfg t) 0#32 = 0#32 := by
    rw [List.getD_eq_getElem?_getD]
    cases hr : s.dnctl[dnctlIndex s.cfg t]? with
    | none => rfl
    | some r => exact h r (List.mem_of_getElem? hr)
  rw [State.dnctlOf, hz]
  rfl

/-- The port of an idle context, or of one that is not there, holds no word. -/
theorem State.portWords_eq_nil {s : State} (h : ∀ c ∈ s.contexts, c = Context.idle) (t : Nat) :
    s.portWords t = [] := by
  unfold State.portWords
  split
  · next c hc => rw [h c (List.mem_of_getElem? hc)]; rfl
  · rfl

@[simp] theorem State.dnctlOf_resetBlock (s : State) (t : Nat) : s.resetBlock.dnctlOf t = 0#32 :=
  State.dnctlOf_eq_zero (by simp) t

@[simp] theorem State.portWords_resetBlock (s : State) (t : Nat) : s.resetBlock.portWords t = [] :=
  State.portWords_eq_nil (by simp) t

/-- A state right after reset is a fixed point of the reset of the block. -/
theorem State.resetBlock_resetWith (cfg : Cfg) (alloc : List Span) (mem : Memory) :
    (State.resetWith cfg alloc mem).resetBlock = State.resetWith cfg alloc mem := rfl

/-- A reset at the head of the host's list takes place in every state, live or faulted (60 R94). -/
theorem step_reset {s : State} {acts : List HostAction} (h : s.inbox = .reset :: acts) :
    step s = .next (s.setInbox acts).resetBlock := by
  cases hf : s.faulted with
  | none => simp [step, hf, liveStep, h, hostStep]
  | some r => simp [step, hf, faultedStep, h]

/-- Settles O9: by `step_reset` the step is the reset of the block, whose values the lemmas about `State.resetBlock`
give; `State.reset` is the reset of itself. -/
theorem resetLeavesTheSpecValues : Obligations.ResetLeavesTheSpecValues := by
  refine ⟨fun s acts hin => ⟨_, step_reset hin, ?_⟩, ?_⟩
  · simp [ftz, daz]
  · rw [State.reset, ← State.resetBlock_resetWith]
    simp

/-! ### Who writes the control registers (10 R16, 42 R74) -/

/-- A context that changes a register completes a `DNEN`. -/
theorem runContext_dnctl {t : Nat} {s s' : State} (h : runContext t s = .next s') (hne : s'.dnctl ≠ s.dnctl) :
    s.executing t = some .dnen ∧ s'.portWords t = [] := by
  obtain ⟨i, hi, hx⟩ | ⟨r, rfl⟩ | rfl := runContext_next h
  · obtain ⟨-, -, ⟨r, -, rfl⟩ | ⟨-, rfl⟩⟩ := exec_next hx
    · simp at hne
    · have hdnen : i = .dnen := by
        by_contra hi'
        simp [effect_dnctl_of_ne_dnen _ hi'] at hne
      refine ⟨hdnen ▸ hi, ?_⟩
      simpa using State.portWords_complete_same (effect i (s.setCur t))
  · simp at hne
  · simp at hne

theorem acceptWord_dnctl {t : Nat} {w : Word} {s s' : State} (h : acceptWord t w s = .next s') :
    s'.dnctl = s.dnctl := by
  obtain ⟨ws, -, ⟨r, rfl⟩ | ⟨-, rfl⟩ | ⟨i, rest, -, -, ⟨-, rfl⟩ | ⟨js, -, -, hrace⟩⟩⟩ := acceptWord_next h
  · simp
  · simp
  · simp
  · simpa using raiseRace_dnctl hrace

theorem hostLoad_dnctl {a : Word} {s s' : State} (h : hostLoad a s = .next s') : s'.dnctl = s.dnctl := by
  obtain ⟨js, -, ⟨-, rfl⟩ | ⟨-, hrace⟩⟩ := hostLoad_next h
  · rfl
  · exact raiseRace_dnctl hrace

theorem hostStore_dnctl {a : Word} {b : Byte} {s s' : State} (h : hostStore a b s = .next s') :
    s'.dnctl = s.dnctl := by
  obtain ⟨js, -, ⟨-, rfl⟩ | ⟨-, hrace⟩⟩ := hostStore_next h
  · simp
  · exact raiseRace_dnctl hrace

theorem hostDestroy_dnctl {sp : Span} {s s' : State} (h : hostDestroy sp s = .next s') :
    s'.dnctl = s.dnctl := by
  obtain ⟨-, rfl⟩ | ⟨-, js, -, ⟨-, rfl⟩ | ⟨-, hrace⟩⟩ := hostDestroy_next h
  · rfl
  · simp
  · exact raiseRace_dnctl hrace

/-- Settles O19, by the kinds of step: but for the reset and the command of a context, none writes a register. -/
theorem onlyDnenAndResetWriteDnctl : Obligations.OnlyDnenAndResetWriteDnctl := by
  intro s s' h hne
  cases step_kind h with
  | reset acts inbox result => exact .inl ⟨acts, inbox⟩
  | run t acts live ctx result => exact .inr ⟨t, by simpa using runContext_dnctl result hne⟩
  | accept t w acts live ctx inbox idle result => exact absurd (acceptWord_dnctl result) hne
  | load a acts live inbox result => exact absurd (hostLoad_dnctl result) hne
  | store a b acts live inbox result => exact absurd (hostStore_dnctl result) hne
  | create sp acts live inbox result => exact absurd (by simp [result]) hne
  | destroy sp acts live inbox result => exact absurd (hostDestroy_dnctl result) hne
  | idle live result => exact absurd (by rw [result]) hne

/-! ### Who writes memory (10 R19, 20 R28, 60 R87) -/

/-- A byte that a Race changes lies in one of the buffers involved. -/
theorem raiseRace_read_changed {bufs : List Span} {s s' : State} {a : Nat} (h : raiseRace bufs s = .next s')
    (hne : s'.mem.read a ≠ s.mem.read a) :
    s'.faulted = some .race ∧ ∃ sp ∈ bufs, sp.base ≤ a ∧ a < sp.base + sp.len := by
  obtain ⟨hf, -, -, -, -, hread, -⟩ := raiseRace_inv h
  refine ⟨hf, ?_⟩
  by_contra hout
  exact hne (hread a fun sp hsp hin => hout ⟨sp, hsp, hin⟩)

/-- A byte that a Race among commands in execution changes lies in a buffer of one of them. -/
theorem runningRace_read_changed {js : List Instr} {s s' : State} {a : Nat} (hjs : ∀ j ∈ js, j ∈ s.allExecuting)
    (h : raiseRace (js.flatMap bufferSpans) s = .next s') (hne : s'.mem.read a ≠ s.mem.read a) :
    s'.faulted = some .race ∧ InBufferOfRunning bufferSpans s a := by
  obtain ⟨hf, sp, hsp, hin⟩ := raiseRace_read_changed h hne
  refine ⟨hf, ?_⟩
  by_contra hout
  exact outside_running_buffers hjs hout sp hsp hin

/-- A byte that a context changes lies in the output buffer of its command. -/
theorem runContext_read_changed {t : Nat} {s s' : State} {a : Nat} (h : runContext t s = .next s')
    (hne : s'.mem.read a ≠ s.mem.read a) : InBufferOfRunning writeSpans s a := by
  obtain ⟨i, hi, hx⟩ | ⟨r, rfl⟩ | rfl := runContext_next h
  · obtain ⟨-, hw, ⟨r, -, rfl⟩ | ⟨-, rfl⟩⟩ := exec_next hx
    · simp at hne
    · refine ⟨t, i, executing_lt hi, hi, ?_⟩
      by_contra hout
      exact hne (effect_read_other (s.setCur t) hw fun sp hsp hin => hout ⟨sp, hsp, hin⟩)
  · simp at hne
  · simp at hne

/-- A byte that a word at a port changes lies, with a Race, in a buffer of a command in execution or of the command
that this word made whole. -/
theorem acceptWord_read_changed {t : Nat} {w : Word} {s s' : State} {a : Nat} (h : acceptWord t w s = .next s')
    (hne : s'.mem.read a ≠ s.mem.read a) :
    s'.faulted = some .race ∧ (InBufferOfRunning bufferSpans s a ∨
      ∃ i rest, decode (s.portWords t ++ [w]) = .ok (i, rest) ∧
        ∃ sp ∈ bufferSpans i, sp.base ≤ a ∧ a < sp.base + sp.len) := by
  obtain ⟨ws, rfl, ⟨r, rfl⟩ | ⟨-, rfl⟩ | ⟨i, rest, hd, -, ⟨-, rfl⟩ | ⟨js, -, hjs, hrace⟩⟩⟩ := acceptWord_next h
  · simp at hne
  · simp at hne
  · simp at hne
  · obtain ⟨hf, sp, hbuf, hin⟩ := raiseRace_read_changed hrace (by simpa using hne)
    refine ⟨hf, ?_⟩
    obtain ⟨j, hj, hsp⟩ := List.mem_flatMap.mp hbuf
    obtain rfl | hj := List.mem_cons.mp hj
    · exact .inr ⟨j, rest, hd, sp, hsp, hin⟩
    · obtain ⟨u, -, hu⟩ := mem_othersExecuting.mp (hjs j hj)
      exact .inl ⟨u, j, executing_lt hu, hu, sp, hsp, hin⟩

theorem hostLoad_read_changed {p : Word} {s s' : State} {a : Nat} (h : hostLoad p s = .next s')
    (hne : s'.mem.read a ≠ s.mem.read a) : s'.faulted = some .race ∧ InBufferOfRunning bufferSpans s a := by
  obtain ⟨js, rfl, ⟨-, rfl⟩ | ⟨-, hrace⟩⟩ := hostLoad_next h
  · exact absurd rfl hne
  · exact runningRace_read_changed (fun j hj => (List.mem_filter.mp hj).1) hrace hne

theorem hostStore_read_changed {p : Word} {b : Byte} {s s' : State} {a : Nat} (h : hostStore p b s = .next s')
    (hne : s'.mem.read a ≠ s.mem.read a) :
    p.toNat = a ∨ (s'.faulted = some .race ∧ InBufferOfRunning bufferSpans s a) := by
  obtain ⟨js, rfl, ⟨-, rfl⟩ | ⟨-, hrace⟩⟩ := hostStore_next h
  · refine .inl ?_
    by_contra hp
    exact hne (Memory.read_write_other s.mem b (Ne.symm hp))
  · exact .inr (runningRace_read_changed (fun j hj => (List.mem_filter.mp hj).1) hrace hne)

theorem hostDestroy_read_changed {p : Span} {s s' : State} {a : Nat} (h : hostDestroy p s = .next s')
    (hne : s'.mem.read a ≠ s.mem.read a) : s'.faulted = some .race ∧ InBufferOfRunning bufferSpans s a := by
  obtain ⟨-, rfl⟩ | ⟨-, js, rfl, ⟨-, rfl⟩ | ⟨-, hrace⟩⟩ := hostDestroy_next h
  · exact absurd rfl hne
  · exact absurd rfl hne
  · exact runningRace_read_changed (fun j hj => (List.mem_filter.mp hj).1) hrace hne

/-- Settles O20, by the kinds of step: each operation that a step can be names the bytes that it may change. -/
theorem memoryChangesOnlyInOutputBuffers : Obligations.MemoryChangesOnlyInOutputBuffers := by
  intro s s' a h hne
  cases step_kind h with
  | reset acts inbox result => exact absurd (by simp [result]) hne
  | run t acts live ctx result => exact .inr (.inl (runContext_read_changed (s := s.setInbox acts) result hne))
  | accept t w acts live ctx inbox idle result =>
    obtain ⟨hf, hrun | ⟨i, rest, hd, hin⟩⟩ := acceptWord_read_changed result hne
    · exact .inr (.inr ⟨hf, .inl hrun⟩)
    · exact .inr (.inr ⟨hf, .inr ⟨t, w, acts, i, rest, inbox, hd, hin⟩⟩)
  | load p acts live inbox result =>
    obtain ⟨hf, hrun⟩ := hostLoad_read_changed result hne
    exact .inr (.inr ⟨hf, .inl hrun⟩)
  | store p b acts live inbox result =>
    obtain hp | ⟨hf, hrun⟩ := hostStore_read_changed result hne
    · exact .inl ⟨p, b, acts, inbox, hp⟩
    · exact .inr (.inr ⟨hf, .inl hrun⟩)
  | create sp acts live inbox result => exact absurd (by simp [result]) hne
  | destroy sp acts live inbox result =>
    obtain ⟨hf, hrun⟩ := hostDestroy_read_changed result hne
    exact .inr (.inr ⟨hf, .inl hrun⟩)
  | idle live result => exact absurd (by rw [result]) hne

end Sys2Proof.Machine
end

section
/-! SUPPORT. The invariant of the block (`Safety.Inv`): what keeps each of its parts, that the reset establishes it,
and that every step keeps it. -/

namespace Sys2Proof.Safety

open Sys2Proof.Machine

/-! ### The part that also a faulted block keeps -/

/-- `Inv` without the part about the commands in execution, which it asks of a live block only. -/
structure Standing (s : State) : Prop where
  mem_wf : Memory.wf s.mem = true
  shape  : Shape s
  dnctl  : DnctlLegal s

theorem inv_iff {s : State} : Inv s ↔ Standing s ∧ (s.faulted = none → InFlight s) :=
  ⟨fun ⟨hm, hs, hd, hfl⟩ => ⟨⟨hm, hs, hd⟩, hfl⟩, fun ⟨⟨hm, hs, hd⟩, hfl⟩ => ⟨hm, hs, hd, hfl⟩⟩

theorem Standing.inv_of_faulted {s : State} {r : FaultReason} (h : Standing s) (hf : s.faulted = some r) : Inv s :=
  inv_iff.mpr ⟨h, fun hlive => by simp [hf] at hlive⟩

/-- An update that writes no control register and removes no context keeps what stands, if its memory is canonical. -/
theorem Standing.of_fields {s s' : State} (h : Standing s) (hm : Memory.wf s'.mem = true) (hcfg : s'.cfg = s.cfg)
    (hctx : s'.contexts.length = s.contexts.length) (hdn : s'.dnctl = s.dnctl) (hcur : s'.cur = s.cur) :
    Standing s' := by
  obtain ⟨-, ⟨hwf, hlen, hcount, hlt⟩, hlegal⟩ := h
  refine ⟨hm, ⟨?_, ?_, ?_, ?_⟩, ?_⟩
  · rwa [hcfg]
  · rwa [hctx, hcfg]
  · rwa [hdn, hcfg]
  · rwa [hcur, hcfg]
  · unfold DnctlLegal
    rwa [hdn, hcfg]

theorem Standing.setInbox {s : State} (h : Standing s) (acts : List HostAction) : Standing (s.setInbox acts) :=
  h.of_fields h.mem_wf rfl rfl rfl rfl

theorem Standing.setAlloc {s : State} (h : Standing s) (al : List Span) : Standing (s.setAlloc al) :=
  h.of_fields h.mem_wf rfl rfl rfl rfl

theorem Standing.setFaulted {s : State} (h : Standing s) (r : FaultReason) : Standing (s.setFaulted r) :=
  h.of_fields h.mem_wf rfl rfl rfl rfl

theorem Standing.setMem {s : State} {m : Memory} (h : Standing s) (hm : Memory.wf m = true) :
    Standing (s.setMem m) :=
  h.of_fields hm rfl rfl rfl rfl

theorem Standing.setPort {s : State} (h : Standing s) (t : Nat) (ws : List Word) : Standing (s.setPort t ws) :=
  h.of_fields h.mem_wf rfl (by simp) rfl rfl

theorem Standing.complete {s : State} (h : Standing s) : Standing s.complete :=
  h.of_fields h.mem_wf rfl (by simp) rfl rfl

theorem Standing.setCur {s : State} {t : Nat} (h : Standing s) (ht : t < s.contexts.length) :
    Standing (s.setCur t) :=
  ⟨h.mem_wf, ⟨h.shape.cfg_wf, h.shape.contexts, h.shape.dnctl, h.shape.contexts ▸ ht⟩, h.dnctl⟩

/-- A raised fault asks nothing more of a state than what stands. -/
theorem Standing.inv_setFaulted {s : State} (h : Standing s) (r : FaultReason) : Inv (s.setFaulted r) :=
  (h.setFaulted r).inv_of_faulted rfl

/-- A Race keeps the invariant when the buffers involved lie below the top of memory. -/
theorem Standing.inv_raiseRace {bufs : List Span} {s s' : State} (h : Standing s)
    (hbufs : ∀ sp ∈ bufs, sp.base + sp.len ≤ memSize) (hrace : raiseRace bufs s = .next s') : Inv s' := by
  obtain ⟨hf, hcfg, hdn, hctx, hcur, -, hwf⟩ := raiseRace_inv hrace
  exact (h.of_fields (hwf h.mem_wf hbufs) hcfg (by rw [hctx]) hdn hcur).inv_of_faulted hf

/-! ### What a command does to the part that stands -/

theorem effect_dnctl_length (i : Instr) (s : State) : (effect i s).dnctl.length = s.dnctl.length := by
  rw [effect_dnctl]
  cases i == Instr.dnen && s.cfg.dnSupported <;> simp

/-- A command writes 3 to a register, or nothing, and 3 only where the mode is supported (42 R72, R73). -/
theorem effect_dnctlLegal {i : Instr} {s : State} (h : DnctlLegal s) : DnctlLegal (effect i s) := by
  intro r hr
  rw [effect_dnctl] at hr
  rw [effect_cfg]
  cases hset : i == Instr.dnen && s.cfg.dnSupported with
  | false =>
    rw [hset] at hr
    exact h r hr
  | true =>
    rw [hset] at hr
    obtain hr | rfl := List.mem_or_eq_of_mem_set hr
    · exact h r hr
    · exact .inr ⟨rfl, (Bool.and_eq_true_iff.mp hset).2⟩

theorem Standing.effect {i : Instr} {s : State} (h : Standing s) (hw : i.wf = true)
    (hb : breachOf i s.alloc = none) : Standing (effect i s) := by
  obtain ⟨hm, ⟨hwf, hlen, hcount, hlt⟩, hlegal⟩ := h
  refine ⟨effect_wf hw hb hm, ⟨?_, ?_, ?_, ?_⟩, effect_dnctlLegal hlegal⟩
  · rwa [effect_cfg]
  · rwa [effect_contexts, effect_cfg]
  · rwa [effect_dnctl_length, effect_cfg]
  · rwa [effect_cur, effect_cfg]

/-! ### The commands in execution -/

/-- A port that is idle or as before executes at most what it did. -/
theorem executing_of_port {s s' : State} {t : Nat} {i : Instr}
    (hport : s'.portWords t = [] ∨ s'.portWords t = s.portWords t) (h : s'.executing t = some i) :
    s.executing t = some i := by
  obtain ⟨rest, hd⟩ := executing_eq_some_iff.mp h
  obtain hport | hport := hport
  · simp [hport, decode] at hd
  · exact executing_eq_some_iff.mpr ⟨rest, hport ▸ hd⟩

/-- An update that leaves each port as it was or makes it idle, and under whose `ALLOC` the checks still pass, keeps
the commands in execution checked and disjoint. -/
theorem InFlight.of_ports {s s' : State} (h : InFlight s)
    (hports : ∀ t, s'.portWords t = [] ∨ s'.portWords t = s.portWords t)
    (hchecked : ∀ t i, s.executing t = some i → breachOf i s'.alloc = none) : InFlight s' where
  ports t := by
    obtain ht | ht := hports t
    · exact .inl ht
    · rw [ht]; exact h.ports t
  checked t i hi := hchecked t i (executing_of_port (hports t) hi)
  disjoint t u i j htu hi hj :=
    h.disjoint t u i j htu (executing_of_port (hports t) hi) (executing_of_port (hports u) hj)

theorem InFlight.setInbox {s : State} (h : InFlight s) (acts : List HostAction) : InFlight (s.setInbox acts) :=
  h.of_ports (fun _ => .inr rfl) h.checked

theorem InFlight.setCur {s : State} (h : InFlight s) (t : Nat) : InFlight (s.setCur t) :=
  h.of_ports (fun _ => .inr rfl) h.checked

theorem InFlight.setMem {s : State} (h : InFlight s) (m : Memory) : InFlight (s.setMem m) :=
  h.of_ports (fun _ => .inr rfl) h.checked

theorem InFlight.effect {s : State} (h : InFlight s) (i : Instr) : InFlight (effect i s) :=
  h.of_ports (fun t => .inr (effect_portWords i s t)) (by simpa using h.checked)

theorem InFlight.complete {s : State} (h : InFlight s) : InFlight s.complete := by
  refine h.of_ports (fun t => ?_) h.checked
  by_cases ht : t = s.cur
  · exact .inl (ht ▸ s.portWords_complete_same)
  · exact .inr (s.portWords_complete_other ht)

/-- `ALLOC` may change as long as it keeps owning the pieces of the buffers of the commands in execution. -/
theorem InFlight.setAlloc {s : State} {al : List Span} (h : InFlight s)
    (howned : ∀ i ∈ s.allExecuting, ∀ sp ∈ bufferSpans i, ∀ a n, 0 < n → sp.base ≤ a → a + n ≤ sp.base + sp.len →
      OwnedRange s.alloc a n → OwnedRange al a n) : InFlight (s.setAlloc al) :=
  h.of_ports (fun _ => .inr rfl) fun t i hi =>
    breachOf_none_of_owned (h.checked t i hi) (howned i (mem_allExecuting.mpr ⟨t, executing_lt hi, hi⟩))

/-- A port may take words that are legal when the command they make whole, if any, is checked and conflicts with no
command of another context. -/
theorem InFlight.setPort {s : State} {t : Nat} {ws : List Word} (h : InFlight s) (ht : t < s.contexts.length)
    (hlegal : PortLegal ws)
    (hcmd : ∀ i rest, decode ws = .ok (i, rest) →
      breachOf i s.alloc = none ∧ ∀ j ∈ s.othersExecuting t, conflict i j = false) :
    InFlight (s.setPort t ws) := by
  have hsame : ∀ i, (s.setPort t ws).executing t = some i →
      breachOf i s.alloc = none ∧ ∀ j ∈ s.othersExecuting t, conflict i j = false := by
    intro i hi
    obtain ⟨rest, hd⟩ := executing_eq_some_iff.mp hi
    exact hcmd i rest (State.portWords_setPort_same s ws ht ▸ hd)
  have hother : ∀ u, u ≠ t → (s.setPort t ws).executing u = s.executing u :=
    fun u hu => State.executing_setPort_other s ws hu
  refine ⟨fun u => ?_, fun u i hi => ?_, fun u v i j huv hi hj => ?_⟩
  · by_cases hu : u = t
    · rwa [hu, State.portWords_setPort_same s ws ht]
    · rw [State.portWords_setPort_other s ws hu]
      exact h.ports u
  · by_cases hu : u = t
    · exact (hsame i (hu ▸ hi)).1
    · exact h.checked u i (hother u hu ▸ hi)
  · by_cases hu : u = t
    · subst hu
      have hv : s.executing v = some j := hother v (Ne.symm huv) ▸ hj
      exact (hsame i hi).2 j (mem_othersExecuting.mpr ⟨v, Ne.symm huv, hv⟩)
    · have hiu : s.executing u = some i := hother u hu ▸ hi
      by_cases hv : v = t
      · subst hv
        rw [conflict_comm]
        exact (hsame j hj).2 i (mem_othersExecuting.mpr ⟨u, hu, hiu⟩)
      · exact h.disjoint u v i j huv hiu (hother v hv ▸ hj)

/-- A port that executes nothing is idle or waits for more words of its command. -/
theorem InFlight.port_incomplete {s : State} {t : Nat} (h : InFlight s) (hidle : s.executing t = none) :
    s.portWords t = [] ∨ decode (s.portWords t) = .error .incomplete := by
  obtain hnil | hinc | ⟨i, hd⟩ := h.ports t
  · exact .inl hnil
  · exact .inr hinc
  · simp [State.executing, hd] at hidle

theorem InFlight.checked_of_mem {s : State} (h : InFlight s) {j : Instr} (hj : j ∈ s.allExecuting) :
    breachOf j s.alloc = none := by
  obtain ⟨t, -, ht⟩ := mem_allExecuting.mp hj
  exact h.checked t j ht

/-- The buffers of commands that passed their checks lie below the top of memory. -/
theorem flatMap_buffers_le {js : List Instr} {alloc : List Span} (h : ∀ j ∈ js, breachOf j alloc = none) :
    ∀ sp ∈ js.flatMap bufferSpans, sp.base + sp.len ≤ memSize := by
  intro sp hsp
  obtain ⟨j, hj, hsp⟩ := List.mem_flatMap.mp hsp
  exact breachOf_none_buffers (h j hj) sp hsp

/-! ### Reset establishes the invariant -/

theorem Inv.of_reset {s : State} (hwf : s.cfg.wf = true) (hm : Memory.wf s.mem = true) : Inv s.resetBlock := by
  have hidle : ∀ t i, s.resetBlock.executing t ≠ some i := by simp [State.executing, decode]
  refine ⟨hm, ⟨hwf, ?_, ?_, ?_⟩, ?_, fun _ => ⟨fun t => .inl (by simp), ?_, ?_⟩⟩
  · simp
  · simp
  · rw [Cfg.wf, Bool.and_eq_true, decide_eq_true_eq] at hwf
    exact hwf.2
  · exact fun r hr => .inl (List.eq_of_mem_replicate hr)
  · exact fun t i hi => absurd hi (hidle t i)
  · exact fun t u i j _ hi _ => absurd hi (hidle t i)

theorem inv_resetWith {cfg : Cfg} {mem : Memory} (alloc : List Span) (hwf : cfg.wf = true)
    (hm : Memory.wf mem = true) : Inv (State.resetWith cfg alloc mem) := by
  rw [← State.resetBlock_resetWith]
  exact Inv.of_reset hwf hm

/-- Settles O17: every reset state is the reset of itself, and `Inv.of_reset` needs `CFG` and memory well formed. -/
theorem resetMeetsTheInvariant : Obligations.ResetMeetsTheInvariant :=
  ⟨inv_resetWith [] (by decide) Memory.wf_nil, fun _ alloc _ hwf hm => inv_resetWith alloc hwf hm⟩

/-! ### Every operation of a step keeps the invariant -/

theorem Inv.standing {s : State} (h : Inv s) : Standing s := (inv_iff.mp h).1

theorem Inv.setInbox {s : State} (h : Inv s) (acts : List HostAction) : Inv (s.setInbox acts) :=
  inv_iff.mpr ⟨h.standing.setInbox acts, fun hf => (h.inFlight hf).setInbox acts⟩

theorem Inv.setCur {s : State} {t : Nat} (h : Inv s) (ht : t < s.contexts.length) : Inv (s.setCur t) :=
  inv_iff.mpr ⟨h.standing.setCur ht, fun hf => (h.inFlight hf).setCur t⟩

theorem exec_keeps_inv {i : Instr} {s s' : State} (hinv : Inv s) (h : exec i s = .next s') : Inv s' := by
  obtain ⟨hf, hw, ⟨r, -, rfl⟩ | ⟨hb, rfl⟩⟩ := exec_next h
  · exact hinv.standing.inv_setFaulted r
  · exact inv_iff.mpr ⟨(hinv.standing.effect hw hb).complete, fun _ => ((hinv.inFlight hf).effect i).complete⟩

theorem runContext_keeps_inv {t : Nat} {s s' : State} (hinv : Inv s) (ht : t < s.contexts.length)
    (h : runContext t s = .next s') : Inv s' := by
  obtain ⟨i, -, hx⟩ | ⟨r, rfl⟩ | rfl := runContext_next h
  · exact exec_keeps_inv (hinv.setCur ht) hx
  · exact hinv.standing.inv_setFaulted r
  · exact hinv

theorem acceptWord_keeps_inv {t : Nat} {w : Word} {s s' : State} (hinv : Inv s) (hf : s.faulted = none)
    (ht : t < s.contexts.length) (hidle : s.executing t = none) (h : acceptWord t w s = .next s') : Inv s' := by
  have hfl := hinv.inFlight hf
  obtain ⟨ws, rfl, ⟨r, rfl⟩ | ⟨hinc, rfl⟩ | ⟨i, rest, hd, hb, ⟨hapart, rfl⟩ | ⟨js, -, hjs, hrace⟩⟩⟩ := acceptWord_next h
  · exact (hinv.standing.setPort _ _).inv_setFaulted r
  · refine inv_iff.mpr ⟨hinv.standing.setPort _ _, fun _ => hfl.setPort ht (.inr (.inl hinc)) fun i rest hd => ?_⟩
    simp [hinc] at hd
  · obtain rfl : rest = [] := decode_snoc (hfl.port_incomplete hidle) hd
    refine inv_iff.mpr ⟨hinv.standing.setPort _ _, fun _ => hfl.setPort ht (.inr (.inr ⟨i, hd⟩)) fun j rest hj => ?_⟩
    obtain ⟨rfl, -⟩ : i = j ∧ [] = rest := by simpa [hd] using hj
    exact ⟨hb, hapart⟩
  · refine (hinv.standing.setPort _ _).inv_raiseRace (flatMap_buffers_le (alloc := s.alloc) ?_) hrace
    intro j hj
    obtain rfl | hj := List.mem_cons.mp hj
    · exact hb
    · obtain ⟨u, -, hu⟩ := mem_othersExecuting.mp (hjs j hj)
      exact hfl.checked u j hu

/-- A Race among commands in execution keeps the invariant. -/
theorem runningRace_keeps_inv {js : List Instr} {s s' : State} (hinv : Inv s) (hf : s.faulted = none)
    (hjs : ∀ j ∈ js, j ∈ s.allExecuting) (h : raiseRace (js.flatMap bufferSpans) s = .next s') : Inv s' :=
  hinv.standing.inv_raiseRace (flatMap_buffers_le fun j hj => (hinv.inFlight hf).checked_of_mem (hjs j hj)) h

theorem hostLoad_keeps_inv {a : Word} {s s' : State} (hinv : Inv s) (hf : s.faulted = none)
    (h : hostLoad a s = .next s') : Inv s' := by
  obtain ⟨js, rfl, ⟨-, rfl⟩ | ⟨-, hrace⟩⟩ := hostLoad_next h
  · exact hinv
  · exact runningRace_keeps_inv hinv hf (fun j hj => (List.mem_filter.mp hj).1) hrace

theorem hostStore_keeps_inv {a : Word} {b : Byte} {s s' : State} (hinv : Inv s) (hf : s.faulted = none)
    (h : hostStore a b s = .next s') : Inv s' := by
  obtain ⟨js, rfl, ⟨-, rfl⟩ | ⟨-, hrace⟩⟩ := hostStore_next h
  · have ha : a.toNat < memSize := a.isLt
    exact inv_iff.mpr ⟨hinv.standing.setMem (Memory.wf_write b hinv.mem_wf ha), fun _ => (hinv.inFlight hf).setMem _⟩
  · exact runningRace_keeps_inv hinv hf (fun j hj => (List.mem_filter.mp hj).1) hrace

/-- A new buffer takes away nothing that `ALLOC` owned. -/
theorem ownedRange_cons {al : List Span} {a n : Nat} (sp : Span) (h : OwnedRange al a n) :
    OwnedRange (sp :: al) a n := by
  obtain ⟨o, ho, hown⟩ := h
  exact ⟨o, List.mem_cons_of_mem sp ho, hown⟩

/-- Removing a buffer that does not meet a range takes away none of its pieces. -/
theorem ownedRange_filter {al : List Span} {p sp : Span} {a n : Nat} (hmeet : p.meets sp = false) (hn : 0 < n)
    (hlo : sp.base ≤ a) (hhi : a + n ≤ sp.base + sp.len) (h : OwnedRange al a n) :
    OwnedRange (al.filter fun q => q != p) a n := by
  obtain ⟨o, ho, h1, htop, hbase, hend⟩ := h
  refine ⟨o, List.mem_filter.mpr ⟨ho, ?_⟩, h1, htop, hbase, hend⟩
  rw [bne_iff_ne]
  rintro rfl
  exact (Span.meets_eq_false_iff o sp).mp hmeet a ⟨⟨hbase, by omega⟩, hlo, by omega⟩

theorem hostCreate_keeps_inv {s : State} (hinv : Inv s) (sp : Span) : Inv (s.setAlloc (sp :: s.alloc)) :=
  inv_iff.mpr ⟨hinv.standing.setAlloc _, fun hf =>
    (hinv.inFlight hf).setAlloc fun _ _ _ _ _ _ _ _ _ hown => ownedRange_cons sp hown⟩

theorem hostDestroy_keeps_inv {p : Span} {s s' : State} (hinv : Inv s) (hf : s.faulted = none)
    (h : hostDestroy p s = .next s') : Inv s' := by
  obtain ⟨-, rfl⟩ | ⟨-, js, hjs, ⟨hnil, rfl⟩ | ⟨-, hrace⟩⟩ := hostDestroy_next h
  · exact hinv
  · refine inv_iff.mpr ⟨hinv.standing.setAlloc _, fun _ => (hinv.inFlight hf).setAlloc ?_⟩
    intro i hi sp hsp a n hn hlo hhi hown
    have hmeet : p.meets sp = false := by
      have hnone := List.filter_eq_nil_iff.mp (hjs ▸ hnil) i hi
      simpa using List.any_eq_false.mp (Bool.eq_false_iff.mpr hnone) sp hsp
    exact ownedRange_filter hmeet hn hlo hhi hown
  · subst hjs
    exact runningRace_keeps_inv hinv hf (fun j hj => (List.mem_filter.mp hj).1) hrace

theorem step_keeps_inv {s s' : State} (hinv : Inv s) (h : step s = .next s') : Inv s' := by
  cases step_kind h with
  | reset acts inbox result => exact result ▸ Inv.of_reset hinv.shape.cfg_wf hinv.mem_wf
  | run t acts live ctx result => exact runContext_keeps_inv (hinv.setInbox acts) ctx result
  | accept t w acts live ctx inbox idle result =>
    exact acceptWord_keeps_inv (hinv.setInbox acts) live ctx idle result
  | load a acts live inbox result => exact hostLoad_keeps_inv (hinv.setInbox acts) live result
  | store a b acts live inbox result => exact hostStore_keeps_inv (hinv.setInbox acts) live result
  | create sp acts live inbox result => exact result ▸ hostCreate_keeps_inv (hinv.setInbox acts) sp
  | destroy sp acts live inbox result => exact hostDestroy_keeps_inv (hinv.setInbox acts) live result
  | idle live result => exact result ▸ hinv

/-- Settles O16, by the kinds of step: each operation that a step can be keeps what stands also in a faulted block, and
in a live one the commands in execution checked and disjoint. -/
theorem everyStepKeepsTheInvariant : Obligations.EveryStepKeepsTheInvariant :=
  fun _ _ => step_keeps_inv

end Sys2Proof.Safety
end

section
/-! SUPPORT. Memory as a command uses it (20 R24, R25, R30): the two accesses byte by byte, and that the order of a
converter's elements leaves no trace in a canonical memory. -/

namespace Sys2Proof.Machine

open Sys2Proof.Safety

/-- `MemRead` byte by byte (20 R24). -/
theorem memRead_eq_sum (m : Memory) (a n : Nat) :
    memRead m a n = ∑ i ∈ Finset.range n, (m.read (a + i)).toNat * 256 ^ i := by
  induction n generalizing a with
  | zero => rfl
  | succ n ih =>
    have hshift : ∀ i ∈ Finset.range n, 256 * ((m.read (a + 1 + i)).toNat * 256 ^ i) =
        (m.read (a + (i + 1))).toNat * 256 ^ (i + 1) := by
      intro i _
      rw [show a + 1 + i = a + (i + 1) by omega]
      ring
    rw [memRead, ih, Finset.mul_sum, Finset.sum_congr rfl hshift, Finset.sum_range_succ']
    simp [Nat.add_comm]

/-- Settles O11: `MemRead` by induction on the number of bytes, `MemWrite` by the laws of its reads inside and outside. -/
theorem memoryAccessIsLittleEndian : Obligations.MemoryAccessIsLittleEndian := by
  refine fun m a n v => ⟨memRead_eq_sum m a n, fun i hi => ?_, fun x hx => memWrite_read_other m a n v x hx⟩
  rw [memWrite_read_inside m a n v i hi]
  simp

/-- A canonical memory is the same list after a loop of stores in whatever order. -/
theorem storeLoop_perm {α : Type} {addr : α → Nat} {n : Nat} {value : Memory → α → Nat} {l l' : List α} {m : Memory}
    (hp : l'.Perm l) (hv : Undisturbed addr n value l) (ha : StoresApart addr n l) (hn : l.Nodup)
    (hm : m.wf = true) (hle : ∀ e ∈ l, addr e + n ≤ memSize) :
    storeLoop addr n value l' m = storeLoop addr n value l m :=
  Memory.ext_of_wf (Memory.wf_storeLoop hm fun e he => hle e (hp.subset he)) (Memory.wf_storeLoop hm hle)
    (storeLoop_read_perm hp hv ha hn m)

/-- What a ready `ILV` does (40 R52). -/
theorem exec_ilv_of_ready {x : Transfer} {s : State} (h : IlvReady x s) :
    exec (.ilv x) s = .next (s.setMem (ilvLoop s.cfg (s.dnctlOf s.cur) x (elements x) s.mem)).complete :=
  exec_ok (i := .ilv x) h.issued.live h.issued.wf ((ilvBreach_none_iff _ _).mpr ⟨h.basic, h.apart⟩)

/-- What a ready `DILV` does (41 R66). -/
theorem exec_dilv_of_ready {x : Transfer} {s : State} (h : DilvReady x s) :
    exec (.dilv x) s = .next (s.setMem (dilvLoop x (elements x) s.mem)).complete :=
  exec_ok (i := .dilv x) h.issued.live h.issued.wf ((dilvBreach_none_iff _ _).mpr ⟨h.basic, h.apart, h.planes⟩)

theorem ilvLoop_perm {x : Transfer} {s : State} {order : List (Nat × Nat)} (h : IlvReady x s)
    (hm : Memory.wf s.mem = true) (hp : order.Perm (elements x)) (cfg : Cfg) (dn : Word) :
    ilvLoop cfg dn x order s.mem = ilvLoop cfg dn x (elements x) s.mem :=
  storeLoop_perm hp (ilv_undisturbed cfg dn h.issued.wf h.apart) (ilv_storesApart x) (elements_nodup x) hm
    (ilv_target_le h.basic.owned)

theorem dilvLoop_perm {x : Transfer} {s : State} {order : List (Nat × Nat)} (h : DilvReady x s)
    (hm : Memory.wf s.mem = true) (hp : order.Perm (elements x)) :
    dilvLoop x order s.mem = dilvLoop x (elements x) s.mem :=
  storeLoop_perm hp (dilv_undisturbed h.issued.wf h.apart) (dilv_storesApart h.issued.wf h.planes) (elements_nodup x) hm
    (dilv_target_le h.issued.wf h.basic.owned)

/-- Settles O24: `ILV` completes with the loop in the model's order, and any other order leaves the same memory. -/
theorem ilvElementOrderIsUnobservable : Obligations.IlvElementOrderIsUnobservable := by
  intro x s order h hm hp
  rw [exec_ilv_of_ready h, ilvLoop_perm h hm hp]

/-- Settles O36: `DILV` completes with the loop in the model's order, and any other order leaves the same memory. -/
theorem dilvElementOrderIsUnobservable : Obligations.DilvElementOrderIsUnobservable := by
  intro x s order h hm hp
  rw [exec_dilv_of_ready h, dilvLoop_perm h hm hp]

end Sys2Proof.Machine
end

section
/-! SUPPORT. The accesses that are a Race (20 R31, R32): when the host's read or write is one, when a command that begins
is one, and what the Race leaves alone. -/

namespace Sys2Proof.Machine

open Sys2Proof.Safety

/-! ### The host's accesses (20 R31) -/

/-- No command in execution is found to have the byte exactly when none has it in a buffer. -/
theorem filter_running_eq_nil_iff {spans : Instr → List Span} {s : State} {a : Nat} :
    s.allExecuting.filter (fun i => (spans i).any fun sp => sp.has a) = [] ↔ ¬InBufferOfRunning spans s a := by
  simp only [List.filter_eq_nil_iff, List.any_eq_true, Span.has_iff, mem_allExecuting, InBufferOfRunning]
  constructor
  · rintro h ⟨t, i, ht, hi, hsp⟩
    exact h i ⟨t, ht, hi⟩ hsp
  · rintro h i ⟨t, ht, hi⟩ hsp
    exact h ⟨t, i, ht, hi, hsp⟩

theorem hostLoad_plain {s : State} {a : Word} (h : ¬InBufferOfRunning writeSpans s a.toNat) :
    hostLoad a s = .next s := by
  rw [hostLoad, filter_running_eq_nil_iff.mpr h]

theorem hostStore_plain {s : State} {a : Word} (b : Byte) (h : ¬InBufferOfRunning bufferSpans s a.toNat) :
    hostStore a b s = .next (s.setMem (s.mem.write a.toNat b)) := by
  rw [hostStore, filter_running_eq_nil_iff.mpr h]

theorem hostLoad_race {s : State} {a : Word} (h : InBufferOfRunning writeSpans s a.toNat) :
    hostLoad a s = raiseRace ((s.allExecuting.filter fun i => (writeSpans i).any fun sp => sp.has a.toNat).flatMap
      bufferSpans) s := by
  unfold hostLoad
  split
  · next hnil => exact absurd h (filter_running_eq_nil_iff.mp hnil)
  · rfl

theorem hostStore_race {s : State} {a : Word} (b : Byte) (h : InBufferOfRunning bufferSpans s a.toNat) :
    hostStore a b s = raiseRace ((s.allExecuting.filter fun i => (bufferSpans i).any fun sp => sp.has a.toNat).flatMap
      bufferSpans) s := by
  unfold hostStore
  split
  · next hnil => exact absurd h (filter_running_eq_nil_iff.mp hnil)
  · rfl

theorem step_load {s : State} {a : Word} {acts : List HostAction} (hf : s.faulted = none)
    (h : s.inbox = .load a :: acts) : step s = hostLoad a (s.setInbox acts) := by
  simp [step, hf, liveStep, h, hostStep]

theorem step_store {s : State} {a : Word} {b : Byte} {acts : List HostAction} (hf : s.faulted = none)
    (h : s.inbox = .store a b :: acts) : step s = hostStore a b (s.setInbox acts) := by
  simp [step, hf, liveStep, h, hostStep]

/-- What a Race among commands in execution leaves alone (60 R87). -/
theorem runningRace_next {s : State} {js : List Instr} (hjs : ∀ j ∈ js, j ∈ s.allExecuting) :
    ∃ s', raiseRace (js.flatMap bufferSpans) s = .next s' ∧ s'.faulted = some .race ∧ s'.dnctl = s.dnctl ∧
      s'.contexts = s.contexts ∧ s'.alloc = s.alloc ∧
      ∀ p, ¬InBufferOfRunning bufferSpans s p → s'.mem.read p = s.mem.read p := by
  obtain ⟨s', hs, hf, -, hal, hdn, hctx, -, -, hread, -⟩ := raiseRace_next (js.flatMap bufferSpans) s
  exact ⟨s', hs, hf, hdn, hctx, hal, fun p hp => hread p (outside_running_buffers hjs hp)⟩

/-- Settles O12: the host's access is a Race exactly when some command in execution has the byte in a buffer. -/
theorem hostAccessToARunningBufferIsARace : Obligations.HostAccessToARunningBufferIsARace := by
  intro s a b acts hf
  refine ⟨fun hin => ⟨fun hrun => ?_, fun hfree => ?_⟩, fun hin => ⟨fun hrun => ?_, fun hfree => ?_⟩⟩
  · rw [step_store hf hin, hostStore_race (s := s.setInbox acts) b hrun]
    exact runningRace_next fun j hj => (List.mem_filter.mp hj).1
  · rw [step_store hf hin, hostStore_plain (s := s.setInbox acts) b hfree, State.mem_setInbox]
  · rw [step_load hf hin, hostLoad_race (s := s.setInbox acts) hrun]
    exact runningRace_next fun j hj => (List.mem_filter.mp hj).1
  · rw [step_load hf hin, hostLoad_plain (s := s.setInbox acts) hfree]

/-! ### Commands of two contexts (20 R32) -/

/-- A word written to a port that executes nothing is accepted by it. -/
theorem step_writePort_of_idle {s : State} {t : Nat} {w : Word} {acts : List HostAction} (hf : s.faulted = none)
    (ht : t < s.contexts.length) (hidle : s.executing t = none) (h : s.inbox = .writePort t w :: acts) :
    step s = acceptWord t w (s.setInbox acts) := by
  simp [step, hf, liveStep, h, hostStep, portWrite, Nat.not_le.mpr ht, hidle]

/-- The words in a port do not say what the other contexts execute. -/
@[simp] theorem State.othersExecuting_setPort (s : State) (t : Nat) (ws : List Word) :
    (s.setPort t ws).othersExecuting t = s.othersExecuting t := by
  unfold State.othersExecuting
  rw [State.contexts_setPort, List.length_modify]
  refine List.filterMap_congr fun u hu => State.executing_setPort_other s ws ?_
  simpa using (List.mem_filter.mp hu).2

/-- A command whose checks pass and that conflicts with commands of other contexts begins with a Race among them. -/
theorem beginCommand_race {s : State} {t : Nat} {i : Instr} (hb : breachOf i s.alloc = none)
    (hne : (s.othersExecuting t).filter (conflict i) ≠ []) :
    beginCommand t i s = raiseRace ((i :: (s.othersExecuting t).filter (conflict i)).flatMap bufferSpans) s := by
  unfold beginCommand
  split
  · next hr => simp [hb] at hr
  · split
    · next hnil => exact absurd hnil hne
    · rfl

/-- The word that makes such a command whole is the Race. -/
theorem acceptWord_race {s : State} {t : Nat} {w : Word} {i : Instr} {rest : List Word}
    (hd : decode (s.portWords t ++ [w]) = .ok (i, rest)) (hb : breachOf i s.alloc = none)
    (hne : (s.othersExecuting t).filter (conflict i) ≠ []) :
    acceptWord t w s = raiseRace ((i :: (s.othersExecuting t).filter (conflict i)).flatMap bufferSpans)
      (s.setPort t (s.portWords t ++ [w])) := by
  have hothers := s.othersExecuting_setPort t (s.portWords t ++ [w])
  rw [acceptWord, hd, ← hothers]
  exact beginCommand_race hb (hothers ▸ hne)

/-- Two commands conflict when one writes a byte that the other reads or writes. -/
theorem conflict_of_shared_byte {i j : Instr} {p q : Span} {a : Nat}
    (hpq : (p ∈ writeSpans i ∧ q ∈ bufferSpans j) ∨ (p ∈ readSpans i ∧ q ∈ writeSpans j))
    (hp : p.base ≤ a ∧ a < p.base + p.len) (hq : q.base ≤ a ∧ a < q.base + q.len) : conflict i j = true := by
  have hmeet : p.meets q = true := (Span.meets_iff p q).mpr ⟨a, hp, hq⟩
  rw [conflict, Bool.or_eq_true, anyMeet_iff, anyMeet_iff]
  exact hpq.imp (fun ⟨hi, hj⟩ => ⟨p, hi, q, hj, hmeet⟩) (fun ⟨hi, hj⟩ => ⟨p, hi, q, hj, hmeet⟩)

/-- Settles O13: the word that makes the command whole meets the conflict, and the Race stays inside the buffers. -/
theorem conflictingCommandsAreARace : Obligations.ConflictingCommandsAreARace := by
  intro s t u w acts i j rest p q a hf ht hidle hin hd hb hut hj hpq hp1 hp2 hq1 hq2
  have hmem : j ∈ (s.othersExecuting t).filter (conflict i) :=
    List.mem_filter.mpr ⟨mem_othersExecuting.mpr ⟨u, hut, hj⟩, conflict_of_shared_byte hpq ⟨hp1, hp2⟩ ⟨hq1, hq2⟩⟩
  rw [step_writePort_of_idle hf ht hidle hin,
    acceptWord_race (s := s.setInbox acts) hd hb (List.ne_nil_of_mem hmem)]
  obtain ⟨s', hs, hrace, -, hal, hdn, -, -, -, hread, -⟩ := raiseRace_next
    ((i :: (s.othersExecuting t).filter (conflict i)).flatMap bufferSpans)
    ((s.setInbox acts).setPort t (s.portWords t ++ [w]))
  refine ⟨s', hs, hrace, hdn, hal, fun k hrun hown => hread k fun sp hsp => ?_⟩
  obtain ⟨c, hc, hbuf⟩ := List.mem_flatMap.mp hsp
  obtain hc | hc := List.mem_cons.mp hc
  · exact hown sp (hc ▸ hbuf)
  · obtain ⟨v, -, hv⟩ := mem_othersExecuting.mp (List.mem_filter.mp hc).1
    exact fun hk => hrun ⟨v, c, executing_lt hv, hv, sp, hbuf, hk⟩

end Sys2Proof.Machine
end

section
/-! SUPPORT. Commands of different contexts in execution together (20 R32): what one of them reads and writes the other
leaves alone, so that they may run in either order. -/

namespace Sys2Proof.Machine

open Sys2Proof.Safety

/-- A byte lies in one of some spans. -/
def InSpans (sps : List Span) (a : Nat) : Prop := ∃ sp ∈ sps, sp.base ≤ a ∧ a < sp.base + sp.len

/-! ### What the effect of a command depends on -/

/-- No conversion depends on `DNCTL` (43 R83): of a finite sample by `f2p_finite_val`, of any other by the definition. -/
theorem f2p_dnctl (cfg : Cfg) (dn dn' w : Word) : f2p cfg dn w = f2p cfg dn' w := by
  by_cases hfin : isFinite w = true
  · rw [f2p_finite_val cfg dn hfin, f2p_finite_val cfg dn' hfin]
  · have hexp : bexp w = 255 := by simpa [isFinite] using hfin
    by_cases hfrac : frac w = 0
    · rw [f2p_inf cfg dn hexp hfrac, f2p_inf cfg dn' hexp hfrac]
    · rw [f2p_nan cfg dn hexp hfrac, f2p_nan cfg dn' hexp hfrac]

theorem ilvLoop_dnctl (cfg : Cfg) (dn dn' : Word) (x : Transfer) (l : List (Nat × Nat)) (m : Memory) :
    ilvLoop cfg dn x l m = ilvLoop cfg dn' x l m := by
  have hvalue : ilvValue cfg dn x = ilvValue cfg dn' x := by
    funext m e
    rw [ilvValue, ilvValue, f2p_dnctl cfg dn dn']
  rw [ilvLoop_eq, ilvLoop_eq, hvalue]

/-- Loops that store the same values leave a byte alike that they find alike. -/
theorem storeLoop_read_congr {α : Type} {addr : α → Nat} {n : Nat} {value : Memory → α → Nat} {l : List α}
    (hv : Undisturbed addr n value l) (ha : StoresApart addr n l) (hn : l.Nodup) {m m' : Memory} {a : Nat}
    (hvalue : ∀ e ∈ l, value m' e = value m e) (hread : m'.read a = m.read a) :
    (storeLoop addr n value l m').read a = (storeLoop addr n value l m).read a := by
  by_cases hstored : StoredBy addr n l a
  · obtain ⟨e, he, h1, h2⟩ := hstored
    obtain ⟨k, rfl⟩ := Nat.exists_eq_add_of_le h1
    have hk : k < n := by omega
    have hinside (m : Memory) := storeLoop_read_inside hv ha m (List.Subset.refl l) hn m (fun _ _ => rfl) he hk
    rw [hinside m', hinside m, hvalue e he]
  · rw [storeLoop_read_other l m' hstored, storeLoop_read_other l m hstored, hread]

/-- An element of `ILV` stores the same where the planes read alike. -/
theorem ilvValue_congr {x : Transfer} {e : Nat × Nat} {m m' : Memory} (cfg : Cfg) (dn : Word) (hw : x.wf = true)
    (he : e ∈ elements x) (h : ∀ p, InSpans (readSpans (.ilv x)) p → m'.read p = m.read p) :
    ilvValue cfg dn x m' e = ilvValue cfg dn x m e := by
  obtain ⟨hf, hc⟩ := mem_elements.mp he
  obtain ⟨hlo, hhi⟩ := planeAddr_bounds (x := x) e.2 hf
  have hsame : memRead m' (planeAddr x e.2 e.1) 4 = memRead m (planeAddr x e.2 e.1) 4 :=
    memRead_congr fun p h1 h2 => h p ⟨_, List.mem_map_of_mem (plane_mem hw hc), hlo.trans h1, h2.trans_le hhi⟩
  rw [ilvValue, ilvValue, hsame]

/-- An element of `DILV` stores the same where the PCM buffer reads alike. -/
theorem dilvValue_congr {x : Transfer} {e : Nat × Nat} {m m' : Memory} (he : e ∈ elements x)
    (h : ∀ p, InSpans (readSpans (.dilv x)) p → m'.read p = m.read p) : dilvValue x m' e = dilvValue x m e := by
  obtain ⟨hf, hc⟩ := mem_elements.mp he
  obtain ⟨hlo, hhi⟩ := pcmAddr_bounds hf hc
  have hsame : memRead m' (pcmAddr x e.1 e.2) 2 = memRead m (pcmAddr x e.1 e.2) 2 :=
    memRead_congr fun p h1 h2 => h p ⟨_, List.mem_singleton.mpr rfl, hlo.trans h1, h2.trans_le hhi⟩
  rw [dilvValue, dilvValue, hsame]

/-- A command whose checks pass leaves a byte alike in two states that have it alike, and alike the bytes it reads. -/
theorem effect_read_congr {i : Instr} {s s' : State} {a : Nat} (hw : i.wf = true) (hb : breachOf i s.alloc = none)
    (hcfg : s'.cfg = s.cfg) (hin : ∀ p, InSpans (readSpans i) p → s'.mem.read p = s.mem.read p)
    (ha : s'.mem.read a = s.mem.read a) : (effect i s').mem.read a = (effect i s).mem.read a := by
  cases i with
  | ilv x =>
    obtain ⟨-, hapart⟩ := (ilvBreach_none_iff _ _).mp hb
    simp only [effect, State.mem_setMem]
    rw [hcfg, ilvLoop_dnctl s.cfg (s'.dnctlOf s'.cur) (s.dnctlOf s.cur)]
    exact storeLoop_read_congr (ilv_undisturbed _ _ hw hapart) (ilv_storesApart x) (elements_nodup x)
      (fun e he => ilvValue_congr _ _ hw he hin) ha
  | dilv x =>
    obtain ⟨-, hapart, hplanes⟩ := (dilvBreach_none_iff _ _).mp hb
    exact storeLoop_read_congr (dilv_undisturbed hw hapart) (dilv_storesApart hw hplanes) (elements_nodup x)
      (fun e he => dilvValue_congr he hin) ha
  | dnen => simpa using ha

/-! ### The state after a command in execution has run -/

/-- What context `t` leaves when its command `i`, whose checks pass, runs. -/
def State.afterRun (s : State) (t : Nat) (i : Instr) : State := (effect i (s.setCur t)).complete

@[simp] theorem State.cfg_afterRun (s : State) (t : Nat) (i : Instr) : (s.afterRun t i).cfg = s.cfg := by
  simp [State.afterRun]
@[simp] theorem State.alloc_afterRun (s : State) (t : Nat) (i : Instr) : (s.afterRun t i).alloc = s.alloc := by
  simp [State.afterRun]
@[simp] theorem State.faulted_afterRun (s : State) (t : Nat) (i : Instr) : (s.afterRun t i).faulted = s.faulted := by
  simp [State.afterRun]
@[simp] theorem State.inbox_afterRun (s : State) (t : Nat) (i : Instr) : (s.afterRun t i).inbox = s.inbox := by
  simp [State.afterRun]
@[simp] theorem State.fresh_afterRun (s : State) (t : Nat) (i : Instr) : (s.afterRun t i).fresh = s.fresh := by
  simp [State.afterRun]
@[simp] theorem State.contexts_afterRun (s : State) (t : Nat) (i : Instr) :
    (s.afterRun t i).contexts = s.contexts.modify t fun c => { words := [], completed := c.completed + 1 } := by
  simp [State.afterRun]

theorem State.dnctl_afterRun (s : State) (t : Nat) (i : Instr) :
    (s.afterRun t i).dnctl =
      bif i == .dnen && s.cfg.dnSupported then s.dnctl.set (dnctlIndex s.cfg t) 3#32 else s.dnctl :=
  effect_dnctl i (s.setCur t)

theorem State.executing_afterRun_other (s : State) {t u : Nat} (i : Instr) (h : u ≠ t) :
    (s.afterRun t i).executing u = s.executing u := by
  rw [State.afterRun, State.executing_complete_other _ (by simpa using h)]
  simp [State.executing]

theorem enableDenormalMode_setInbox (s : State) (acts : List HostAction) :
    enableDenormalMode (s.setInbox acts) = (enableDenormalMode s).setInbox acts := by
  simp only [enableDenormalMode, apply_ite (State.setInbox · acts)]
  rfl

/-- The actions to come are nothing to a command. -/
theorem State.afterRun_setInbox (s : State) (acts : List HostAction) (t : Nat) (i : Instr) :
    (s.setInbox acts).afterRun t i = (s.afterRun t i).setInbox acts := by
  cases i with
  | ilv x => rfl
  | dilv x => rfl
  | dnen => exact congrArg State.complete (enableDenormalMode_setInbox (s.setCur t) acts)

theorem State.afterRun_read_other (s : State) {t : Nat} {i : Instr} {a : Nat} (hw : i.wf = true)
    (h : ¬InSpans (writeSpans i) a) : (s.afterRun t i).mem.read a = s.mem.read a :=
  effect_read_other (s.setCur t) hw fun sp hsp hin => h ⟨sp, hsp, hin⟩

/-- Two writes of one value may be made in either order. -/
theorem set_comm_same_value {α : Type} (l : List α) (m n : Nat) (v : α) :
    (l.set m v).set n v = (l.set n v).set m v := by
  by_cases h : m = n
  · rw [h]
  · exact List.set_comm v v h

/-- `DNEN` writes one value, so two of them may run in either order, also on one shared register (42 R74). -/
theorem State.dnctl_afterRun_comm (s : State) (t u : Nat) (i j : Instr) :
    ((s.afterRun t i).afterRun u j).dnctl = ((s.afterRun u j).afterRun t i).dnctl := by
  simp only [State.dnctl_afterRun, State.cfg_afterRun]
  cases i == Instr.dnen && s.cfg.dnSupported with
  | false => rfl
  | true =>
    cases j == Instr.dnen && s.cfg.dnSupported with
    | false => rfl
    | true => exact set_comm_same_value _ _ _ _

/-- Two states alike in every field are the same. -/
@[ext] theorem State.ext {a b : State} (cfg : a.cfg = b.cfg) (alloc : a.alloc = b.alloc) (mem : a.mem = b.mem)
    (dnctl : a.dnctl = b.dnctl) (faulted : a.faulted = b.faulted) (contexts : a.contexts = b.contexts)
    (cur : a.cur = b.cur) (inbox : a.inbox = b.inbox) (fresh : a.fresh = b.fresh) : a = b := by
  cases a
  cases b
  simp_all

theorem step_advance {s : State} {t : Nat} {acts : List HostAction} (hf : s.faulted = none)
    (ht : t < s.contexts.length) (h : s.inbox = .advance t :: acts) : step s = runContext t (s.setInbox acts) := by
  simp [step, hf, liveStep, h, hostStep, advanceContext, Nat.not_le.mpr ht]

end Sys2Proof.Machine
end

section
/-! SUPPORT. Two commands in execution on different contexts commute: the invariant keeps their buffers disjoint
(20 R32), so that neither sees nor undoes what the other does. -/

namespace Sys2Proof.Safety

open Sys2Proof.Machine

/-! ### A command in execution runs -/

section
variable {s : State} {t u : Nat} {i j : Instr}

theorem Executes.wf (h : Executes s t i) : i.wf = true := executing_wf h.command

theorem Executes.checked (h : Executes s t i) : breachOf i s.alloc = none :=
  (h.inv.inFlight h.live).checked t i h.command

theorem Executes.apart (hi : Executes s t i) (hj : Executes s u j) (htu : t ≠ u) : conflict i j = false :=
  (hi.inv.inFlight hi.live).disjoint t u i j htu hi.command hj.command

theorem Executes.setInbox (h : Executes s t i) (acts : List HostAction) : Executes (s.setInbox acts) t i :=
  ⟨h.inv.setInbox acts, h.live, h.command⟩

theorem Executes.exec_eq (h : Executes s t i) : exec i (s.setCur t) = .next (s.afterRun t i) :=
  exec_ok (s := s.setCur t) h.live h.wf h.checked

/-- A command in execution completes when its context moves (70 R105). -/
theorem Executes.step_eq {acts : List HostAction} (h : Executes s t i) (hin : s.inbox = .advance t :: acts) :
    step s = .next ((s.afterRun t i).setInbox acts) := by
  have hlt := executing_lt h.command
  rw [step_advance h.live hlt hin, runContext_executing (h.setInbox acts).command, (h.setInbox acts).exec_eq,
    State.afterRun_setInbox]

theorem Executes.inv_afterRun (h : Executes s t i) : Inv (s.afterRun t i) :=
  exec_keeps_inv (h.inv.setCur (executing_lt h.command)) h.exec_eq

/-- The command of one context is in execution still when that of another has run. -/
theorem Executes.afterRun_other (hi : Executes s t i) (hj : Executes s u j) (htu : t ≠ u) :
    Executes (s.afterRun t i) u j :=
  ⟨hi.inv_afterRun, by simpa using hi.live, by rw [s.executing_afterRun_other i htu.symm]; exact hj.command⟩

/-! ### Two commands in either order -/

/-- Where the first command wrote nothing, the second leaves what it would have left alone. -/
theorem Executes.read_afterRun_other (hi : Executes s t i) (hj : Executes s u j) (htu : t ≠ u) {a : Nat}
    (ha : ¬InSpans (writeSpans i) a) : ((s.afterRun t i).afterRun u j).mem.read a = (s.afterRun u j).mem.read a := by
  refine effect_read_congr (s := s.setCur u) (s' := (s.afterRun t i).setCur u) hj.wf hj.checked (by simp) ?_
    (s.afterRun_read_other hi.wf ha)
  intro p ⟨sp, hsp, hp⟩
  refine s.afterRun_read_other hi.wf fun hwrite => ?_
  exact not_conflict_apart (hi.apart hj htu) hwrite ⟨sp, List.mem_append_left _ hsp, hp⟩

/-- No byte is written by both commands. -/
theorem Executes.not_both_write (hi : Executes s t i) (hj : Executes s u j) (htu : t ≠ u) {a : Nat}
    (h : InSpans (writeSpans i) a) : ¬InSpans (writeSpans j) a := fun ⟨sp, hsp, hp⟩ =>
  not_conflict_apart (hi.apart hj htu) h ⟨sp, List.mem_append_right _ hsp, hp⟩

theorem Executes.mem_comm (hi : Executes s t i) (hj : Executes s u j) (htu : t ≠ u) :
    ((s.afterRun t i).afterRun u j).mem = ((s.afterRun u j).afterRun t i).mem := by
  refine Memory.ext_of_wf (hi.afterRun_other hj htu).inv_afterRun.mem_wf
    (hj.afterRun_other hi htu.symm).inv_afterRun.mem_wf fun a => ?_
  by_cases ha : InSpans (writeSpans i) a
  · have hja := hi.not_both_write hj htu ha
    rw [State.afterRun_read_other _ hj.wf hja, hj.read_afterRun_other hi htu.symm hja]
  · rw [State.afterRun_read_other _ hi.wf ha, hi.read_afterRun_other hj htu ha]

end

/-- Two commands in execution leave the same in either order, but for the note of which context ran last. -/
theorem Executes.afterRun_comm {s : State} {t u : Nat} {i j : Instr} (hi : Executes s t i) (hj : Executes s u j)
    (htu : t ≠ u) : ((s.afterRun t i).afterRun u j).setCur 0 = ((s.afterRun u j).afterRun t i).setCur 0 := by
  apply State.ext
  case mem => exact hi.mem_comm hj htu
  case dnctl => exact s.dnctl_afterRun_comm t u i j
  case contexts => simpa using List.modify_modify_ne _ _ _ htu
  all_goals simp

theorem core_run_two {s s₁ s₂ : State} (h₁ : step s = .next s₁) (h₂ : step s₁ = .next s₂) :
    core.run 2 s = .next s₂ := by
  have h₁' : core.step s = .next s₁ := h₁
  have h₂' : core.step s₁ = .next s₂ := h₂
  simp only [Host.Core.run, h₁', h₂']

/-- Two commands in execution, run one after the other, both complete. -/
theorem Executes.run_two {s : State} {t u : Nat} {i j : Instr} (hi : Executes s t i) (hj : Executes s u j)
    (htu : t ≠ u) : core.run 2 (s.setInbox [.advance t, .advance u]) =
      .next (((s.afterRun t i).afterRun u j).setInbox []) := by
  have hfirst := (hi.setInbox [.advance t, .advance u]).step_eq rfl
  have hsecond := ((hi.afterRun_other hj htu).setInbox [.advance u]).step_eq rfl
  rw [State.afterRun_setInbox] at hfirst hsecond
  exact core_run_two hfirst hsecond

/-- Settles O14: by the invariant the two commands have disjoint buffers, so neither sees nor undoes the other. -/
theorem concurrentCommandsCommute : Obligations.ConcurrentCommandsCommute := by
  intro s t u i j htu hi hj
  refine ⟨_, _, hi.run_two hj htu, hj.run_two hi htu.symm, ?_, ?_⟩
  · simpa using hi.live
  · exact congrArg (State.setInbox · []) (hi.afterRun_comm hj htu)

end Sys2Proof.Safety
end

section
/-! SUPPORT. The decoder and the encoder against each other (30_encoding.md section 2): the decoder by the row of the
opcode map that word 0 hits, the exact condition of each of its answers, and the words that hit no row. -/

namespace Sys2Proof

/-! ### The decoder row by row (30 R38) -/

/-- Word 0 hits the row of a format `T` command with opcode `opc`; `mk` gives the command its operands. -/
inductive HitsTransfer (w0 : Word) : BitVec 8 → (Transfer → Instr) → Prop where
  | ilv  : opOf w0 = some .ilv → HitsTransfer w0 0x01#8 .ilv
  | dilv : opOf w0 = some .dilv → HitsTransfer w0 0x02#8 .dilv

theorem word0_cases (w0 : Word) :
    opOf w0 = none ∨ opOf w0 = some .dnen ∨ ∃ opc mk, HitsTransfer w0 opc mk := by
  cases hop : opOf w0 with
  | none => exact .inl rfl
  | some op =>
    cases op with
    | ilv => exact .inr (.inr ⟨_, _, .ilv hop⟩)
    | dilv => exact .inr (.inr ⟨_, _, .dilv hop⟩)
    | dnen => exact .inr (.inl rfl)

theorem decode_of_opOf_none {w0 : Word} (ws : List Word) (h : opOf w0 = none) :
    decode (w0 :: ws) = .error .reservedEncoding := by
  simp [decode, h]

theorem decode_of_opOf_dnen {w0 : Word} (ws : List Word) (h : opOf w0 = some .dnen) :
    decode (w0 :: ws) = .ok (.dnen, ws) := by
  simp [decode, h]

section
variable {w0 : Word} {ws rest : List Word} {opc : BitVec 8} {mk : Transfer → Instr}

theorem HitsTransfer.decode_ok_iff {i : Instr} (h : HitsTransfer w0 opc mk) :
    decode (w0 :: ws) = .ok (i, rest) ↔ ∃ x, decodeTransfer w0 ws = .ok (x, rest) ∧ mk x = i := by
  cases h with
  | ilv hop =>
    simp only [decode, hop]
    cases decodeTransfer w0 ws <;> simp [Prod.ext_iff, and_comm]
  | dilv hop =>
    simp only [decode, hop]
    cases decodeTransfer w0 ws <;> simp [Prod.ext_iff, and_comm]

theorem HitsTransfer.decode_error_iff {e : DecodeError} (h : HitsTransfer w0 opc mk) :
    decode (w0 :: ws) = .error e ↔ e = .incomplete ∧ ws.length < 2 + (chField w0).toNat := by
  rw [← decodeTransfer_error_iff]
  cases h with
  | ilv hop =>
    simp only [decode, hop]
    cases decodeTransfer w0 ws <;> simp
  | dilv hop =>
    simp only [decode, hop]
    cases decodeTransfer w0 ws <;> simp

theorem HitsTransfer.commandLength_eq (h : HitsTransfer w0 opc mk) :
    commandLength w0 = 3 + (chField w0).toNat := by
  cases h with
  | ilv hop => simp [commandLength, hop]
  | dilv hop => simp [commandLength, hop]

theorem HitsTransfer.encode_eq (h : HitsTransfer w0 opc mk) (x : Transfer) :
    encode (mk x) = headWord opc x.ch :: x.operandWords := by
  cases h <;> rfl

theorem HitsTransfer.wf_eq (h : HitsTransfer w0 opc mk) (x : Transfer) : (mk x).wf = x.wf := by
  cases h <;> rfl

theorem HitsTransfer.eq_headWord (h : HitsTransfer w0 opc mk) : w0 = headWord opc (chField w0) := by
  cases h with
  | ilv hop => exact Sys2Proof.eq_headWord (by simpa using (opOf_ilv_iff w0).mp hop)
  | dilv hop => exact Sys2Proof.eq_headWord (by simpa using (opOf_dilv_iff w0).mp hop)

/-! ### When the decoder answers a command (30 R36, R37) -/

/-- The encoding of a well-formed transfer decodes: its head word names the row and the number of planes. -/
theorem HitsTransfer.decode_encode {x : Transfer} (h : HitsTransfer (headWord opc x.ch) opc mk) (hw : x.wf = true) :
    decode (encode (mk x) ++ rest) = .ok (mk x, rest) := by
  have hplanes : x.planes.length = x.ch.toNat := by simpa [Transfer.wf] using hw
  rw [h.encode_eq, List.cons_append, h.decode_ok_iff]
  refine ⟨x, decodeTransfer_ok_iff.mpr ⟨rfl, ?_⟩, rfl⟩
  simpa using hplanes

/-- Words that decode in a format `T` row are the head word and the operands of the transfer. -/
theorem HitsTransfer.eq_encode {i : Instr} (h : HitsTransfer w0 opc mk) (hd : decode (w0 :: ws) = .ok (i, rest)) :
    i.wf = true ∧ w0 :: ws = encode i ++ rest := by
  obtain ⟨x, hx, rfl⟩ := h.decode_ok_iff.mp hd
  obtain ⟨rfl, hch, hplanes⟩ := decodeTransfer_ok_iff.mp hx
  refine ⟨by simp [h.wf_eq, Transfer.wf, hch, hplanes], ?_⟩
  rw [h.encode_eq, hch, ← h.eq_headWord]
  rfl

end

theorem decode_encode {i : Instr} (rest : List Word) (hw : i.wf = true) :
    decode (encode i ++ rest) = .ok (i, rest) := by
  cases i with
  | ilv x => exact (HitsTransfer.ilv (opOf_headWord_ilv x.ch)).decode_encode hw
  | dilv x => exact (HitsTransfer.dilv (opOf_headWord_dilv x.ch)).decode_encode hw
  | dnen => exact decode_of_opOf_dnen rest ((opOf_dnen_iff _).mpr rfl)

/-- The decoder answers exactly the well-formed commands, each for the words of its encoding. -/
theorem decode_ok_iff {ws : List Word} {i : Instr} {rest : List Word} :
    decode ws = .ok (i, rest) ↔ i.wf = true ∧ ws = encode i ++ rest := by
  refine ⟨fun h => ?_, fun ⟨hw, hws⟩ => hws ▸ decode_encode rest hw⟩
  cases ws with
  | nil => simp [decode] at h
  | cons w0 ws =>
    obtain hnone | hdnen | ⟨opc, mk, hrow⟩ := word0_cases w0
    · simp [decode_of_opOf_none ws hnone] at h
    · rw [decode_of_opOf_dnen ws hdnen, Except.ok.injEq, Prod.mk.injEq] at h
      obtain ⟨rfl, rfl⟩ := h
      exact ⟨rfl, by rw [(opOf_dnen_iff w0).mp hdnen]; rfl⟩
    · exact hrow.eq_encode h

/-- Settles O1, by the constructors: the encoding of a format `T` command begins with the head word of its row, which
names as many planes as a well-formed command carries. -/
theorem decodeOfEncodeIsTheCommand : Obligations.DecodeOfEncodeIsTheCommand :=
  fun _ rest hw => decode_encode rest hw

/-- Settles O2: the other direction, by the rows of the opcode map that word 0 can hit. -/
theorem decodedWordsAreTheEncoding : Obligations.DecodedWordsAreTheEncoding :=
  fun _ _ _ h => decode_ok_iff.mp h

/-! ### How many words a command takes (30 R39) -/

/-- The decoder waits for more words exactly as long as there are fewer than word 0 announces. -/
theorem decode_incomplete_iff {w0 : Word} {ws : List Word} :
    decode (w0 :: ws) = .error .incomplete ↔ (w0 :: ws).length < commandLength w0 := by
  obtain hnone | hdnen | ⟨opc, mk, hrow⟩ := word0_cases w0
  · simp [decode_of_opOf_none ws hnone, commandLength, hnone]
  · simp [decode_of_opOf_dnen ws hdnen, commandLength, hdnen]
  · simp only [hrow.decode_error_iff, hrow.commandLength_eq, List.length_cons, true_and]
    omega

/-- The decoder rejects word 0 alone, whatever follows it (30 R41). -/
theorem decode_reserved_iff {w0 : Word} {ws : List Word} :
    decode (w0 :: ws) = .error .reservedEncoding ↔ opOf w0 = none := by
  refine ⟨fun h => ?_, decode_of_opOf_none ws⟩
  obtain hnone | hdnen | ⟨opc, mk, hrow⟩ := word0_cases w0
  · exact hnone
  · simp [decode_of_opOf_dnen ws hdnen] at h
  · simp [hrow.decode_error_iff] at h

theorem encodedLength (i : Instr) : Laws.EncodedLength.Statement i := by
  cases i with
  | ilv x => exact Laws.EncodedLength.ilv x
  | dilv x => exact Laws.EncodedLength.dilv x
  | dnen => exact Laws.EncodedLength.dnen

/-- A command that decodes takes as many words as word 0 announces and leaves the others. -/
theorem rest_eq_drop {w0 : Word} {ws : List Word} {i : Instr} {rest : List Word}
    (h : decode (w0 :: ws) = .ok (i, rest)) : rest = (w0 :: ws).drop (commandLength w0) := by
  obtain ⟨hw, hws⟩ := decode_ok_iff.mp h
  obtain ⟨v, vs, hcons, hlen⟩ := encodedLength i hw
  obtain ⟨rfl, -⟩ : w0 = v ∧ ws = vs ++ rest := by simpa [hcons] using hws
  rw [← hlen, hws, List.drop_left]

/-- A legal word 0, followed by as many words as it announces, decodes. -/
theorem exists_decode_eq_drop {w0 : Word} {ws : List Word} (hop : opOf w0 ≠ none)
    (hlen : commandLength w0 ≤ (w0 :: ws).length) :
    ∃ i, decode (w0 :: ws) = .ok (i, (w0 :: ws).drop (commandLength w0)) := by
  match hd : decode (w0 :: ws) with
  | .error .reservedEncoding => exact absurd (decode_reserved_iff.mp hd) hop
  | .error .incomplete => exact absurd (decode_incomplete_iff.mp hd) (Nat.not_lt.mpr hlen)
  | .ok (i, rest) => exact ⟨i, by rw [rest_eq_drop hd]⟩

/-- Word 0 is illegal when it is no row's pattern (30 R41). -/
theorem opOf_eq_none_iff (w : Word) :
    opOf w = none ↔
      w.extractLsb' 16 16 ≠ 0x0100#16 ∧ w.extractLsb' 16 16 ≠ 0x0200#16 ∧ w ≠ 0x03000001#32 := by
  rw [Ne, Ne, Ne, ← opOf_ilv_iff, ← opOf_dilv_iff, ← opOf_dnen_iff]
  obtain hnone | hdnen | ⟨opc, mk, hop | hop⟩ := word0_cases w <;> simp [*]

/-- A word 0 with the upper half of a format `T` row hits that row. -/
theorem exists_hitsTransfer {w0 : Word} (h : w0.extractLsb' 16 16 = 0x0100#16 ∨ w0.extractLsb' 16 16 = 0x0200#16) :
    ∃ opc mk, HitsTransfer w0 opc mk :=
  h.elim (fun hilv => ⟨_, _, .ilv ((opOf_ilv_iff w0).mpr hilv)⟩)
    fun hdilv => ⟨_, _, .dilv ((opOf_dilv_iff w0).mpr hdilv)⟩

theorem HitsTransfer.opOf_ne_none {w0 : Word} {opc : BitVec 8} {mk : Transfer → Instr}
    (h : HitsTransfer w0 opc mk) : opOf w0 ≠ none := by
  cases h <;> simp [*]

/-- Settles O3: `commandLength` is the length that the decoder waits for and takes, and an illegal word 0 needs no
word after it to be rejected. -/
theorem wordZeroDecidesTheLength : Obligations.WordZeroDecidesTheLength := by
  refine fun w0 rest => ⟨fun hrow => ?_, fun hdnen => ?_, fun hilv hdilv hdnen => ?_⟩
  · obtain ⟨opc, mk, hrow⟩ := exists_hitsTransfer hrow
    have hlen : commandLength w0 = 3 + (w0.extractLsb' 0 16).toNat := hrow.commandLength_eq
    rw [← hlen]
    exact ⟨decode_incomplete_iff, exists_decode_eq_drop hrow.opOf_ne_none⟩
  · exact decode_of_opOf_dnen rest ((opOf_dnen_iff w0).mpr hdnen)
  · have hnone := (opOf_eq_none_iff w0).mpr ⟨hilv, hdilv, hdnen⟩
    exact ⟨decode_of_opOf_none rest hnone, decode_of_opOf_none [] hnone⟩

/-- Settles O4: the legal words are the encodings of the commands, by `decode_ok_iff`; the others hit no row. -/
theorem workedEncodingsDecode : Obligations.WorkedEncodingsDecode := by
  refine ⟨?dnen, ?ilv, ?dilv, ?dilvLong, ?_, ?_, ?_, ?_, ?_, ?_, ?ilvNoPlane⟩
  case dnen | ilv | dilv | dilvLong | ilvNoPlane => exact decode_ok_iff.mpr (by decide)
  all_goals exact decode_of_opOf_none [] (by decide)

end Sys2Proof
end

section
/-! SUPPORT. The command port (30 R35, R41): the illegal words by their fields, what a port does with each word it
takes, and the step that lets a context move. -/

namespace Sys2Proof.Machine

/-! ### The illegal words by their fields (30 R36, R37, R41) -/

/-- The upper half of word 0 is `OPC` and `RSV0`. -/
theorem upper_eq_iff (w : Word) (opc : BitVec 8) :
    w.extractLsb' 16 16 = opc ++ 0#8 ↔ w.extractLsb' 24 8 = opc ∧ w.extractLsb' 16 8 = 0#8 := by
  have happend : (opc ++ 0#8).toNat = opc.toNat * 2 ^ 8 := by
    rw [BitVec.toNat_append, BitVec.toNat_zero, Nat.or_zero, Nat.shiftLeft_eq]
  simp only [← BitVec.toNat_inj, happend, BitVec.extractLsb'_toNat, BitVec.toNat_ofNat, Nat.shiftRight_eq_div_pow]
  omega

/-- The word of `DNEN` by its fields `OPC`, `RSV1` and `EN`. -/
theorem eq_dnen_iff (w : Word) :
    w = 0x03000001#32 ↔ w.extractLsb' 24 8 = 3#8 ∧ w.extractLsb' 1 23 = 0#23 ∧ w.extractLsb' 0 1 = 1#1 := by
  simp only [← BitVec.toNat_inj, BitVec.extractLsb'_toNat, BitVec.toNat_ofNat, Nat.shiftRight_eq_div_pow]
  omega

/-- Word 0 hits no row of the opcode map exactly where R41 calls it illegal, clause by clause. -/
theorem opOf_eq_none_iff_fields (w : Word) :
    opOf w = none ↔ w.extractLsb' 24 8 = 0#8 ∨ 4#8 ≤ w.extractLsb' 24 8 ∨
      ((w.extractLsb' 24 8 = 1#8 ∨ w.extractLsb' 24 8 = 2#8) ∧ w.extractLsb' 16 8 ≠ 0#8) ∨
      (w.extractLsb' 24 8 = 3#8 ∧ (w.extractLsb' 1 23 ≠ 0#23 ∨ w.extractLsb' 0 1 = 0#1)) := by
  rw [opOf_eq_none_iff, Ne, Ne, Ne, show (0x0100#16) = 1#8 ++ 0#8 from rfl, show (0x0200#16) = 2#8 ++ 0#8 from rfl,
    upper_eq_iff, upper_eq_iff, eq_dnen_iff]
  generalize w.extractLsb' 24 8 = opc
  generalize w.extractLsb' 16 8 = rsv0
  generalize w.extractLsb' 1 23 = rsv1
  generalize w.extractLsb' 0 1 = en
  have hen : en = 0#1 ↔ en ≠ 1#1 := by revert en; decide
  simp only [hen]
  obtain h | h | h | h | h : opc = 0#8 ∨ opc = 1#8 ∨ opc = 2#8 ∨ opc = 3#8 ∨ 4#8 ≤ opc := by
    bv_omega
  · simp [h]
  · simp [h]
  · simp [h]
  · simp [h, imp_iff_not_or]
  · have hother : opc ≠ 1#8 ∧ opc ≠ 2#8 ∧ opc ≠ 3#8 := by bv_omega
    simp [h, hother]

/-! ### A word at a port -/

/-- A command whose checks find a breach raises it where it would begin (60 R86). -/
theorem beginCommand_breach {s : State} {i : Instr} {r : FaultReason} (t : Nat) (hb : breachOf i s.alloc = some r) :
    beginCommand t i s = .next (s.setFaulted r) := by
  simp [beginCommand, hb, raise]

/-- A command whose checks pass and that conflicts with no command of another context just begins. -/
theorem beginCommand_clean {s : State} {t : Nat} {i : Instr} (hb : breachOf i s.alloc = none)
    (hapart : ∀ u j, u ≠ t → s.executing u = some j → conflict i j = false) : beginCommand t i s = .next s := by
  have hnil : (s.othersExecuting t).filter (conflict i) = [] := by
    refine List.filter_eq_nil_iff.mpr fun j hj => ?_
    obtain ⟨u, hu, hx⟩ := mem_othersExecuting.mp hj
    simp [hapart u j hu hx]
  simp [beginCommand, hb, hnil]

section
variable {s : State} {t : Nat} {w : Word} {i : Instr} {rest : List Word}

theorem acceptWord_reserved (hd : decode (s.portWords t ++ [w]) = .error .reservedEncoding) :
    acceptWord t w s = .next ((s.setPort t (s.portWords t ++ [w])).setFaulted .reservedEncoding) := by
  simp [acceptWord, hd, raise]

theorem acceptWord_incomplete (hd : decode (s.portWords t ++ [w]) = .error .incomplete) :
    acceptWord t w s = .next (s.setPort t (s.portWords t ++ [w])) := by
  simp [acceptWord, hd]

theorem acceptWord_whole (hd : decode (s.portWords t ++ [w]) = .ok (i, rest)) :
    acceptWord t w s = beginCommand t i (s.setPort t (s.portWords t ++ [w])) := by
  simp [acceptWord, hd]

theorem acceptWord_breach {r : FaultReason} (hd : decode (s.portWords t ++ [w]) = .ok (i, rest))
    (hb : breachOf i s.alloc = some r) :
    acceptWord t w s = .next ((s.setPort t (s.portWords t ++ [w])).setFaulted r) := by
  rw [acceptWord_whole hd]
  exact beginCommand_breach t hb

theorem acceptWord_clean (hd : decode (s.portWords t ++ [w]) = .ok (i, rest)) (hb : breachOf i s.alloc = none)
    (hapart : ∀ u j, u ≠ t → s.executing u = some j → conflict i j = false) :
    acceptWord t w s = .next (s.setPort t (s.portWords t ++ [w])) := by
  rw [acceptWord_whole hd]
  refine beginCommand_clean hb fun u j hu hj => hapart u j hu ?_
  rwa [← State.executing_setPort_other s _ hu]

/-- A port that took the last word of a command executes it. -/
theorem State.executing_setPort_same {ws : List Word} (ht : t < s.contexts.length) (hd : decode ws = .ok (i, rest)) :
    (s.setPort t ws).executing t = some i :=
  executing_eq_some_iff.mpr ⟨rest, by rwa [State.portWords_setPort_same s ws ht]⟩

/-- A legal word 0 at an idle port raises nothing: `DNEN` has no checks and no buffers, and the other commands wait
for more words. -/
theorem acceptWord_legal_first (hport : s.portWords t = []) (hop : opOf w ≠ none) :
    acceptWord t w s = .next (s.setPort t [w]) := by
  have hws : s.portWords t ++ [w] = [w] := by rw [hport]; rfl
  obtain hnone | hdnen | ⟨opc, mk, hrow⟩ := word0_cases w
  · exact absurd hnone hop
  · rw [← hws]
    exact acceptWord_clean (by rw [hws, decode_of_opOf_dnen [] hdnen]) rfl fun u j _ _ => rfl
  · rw [← hws]
    refine acceptWord_incomplete ?_
    rw [hws, decode_incomplete_iff, hrow.commandLength_eq, List.length_singleton]
    omega

end

/-- Settles O6: the fields that R41 names are those of the words that hit no row of the opcode map. -/
theorem illegalWordRaisesAtOnce : Obligations.IllegalWordRaisesAtOnce := by
  intro s t w acts hf ht hport hin
  have hidle : s.executing t = none := by simp [State.executing, hport, decode]
  rw [← opOf_eq_none_iff_fields, step_writePort_of_idle hf ht hidle hin]
  refine ⟨fun hnone => ?_, acceptWord_legal_first (s := s.setInbox acts) hport⟩
  have hws : (s.setInbox acts).portWords t ++ [w] = [w] := by simp [hport]
  rw [← hws]
  exact acceptWord_reserved (by rw [hws, decode_of_opOf_none [] hnone])

/-- Settles O7: the port waits while the decoder finds the words incomplete; once it finds a command, the checks
decide. -/
theorem portCollectsWordsInOrder : Obligations.PortCollectsWordsInOrder := by
  intro s t w acts hf ht hidle hin
  rw [step_writePort_of_idle hf ht hidle hin]
  refine ⟨acceptWord_incomplete (s := s.setInbox acts), fun i rest hd hb hapart => ?_, fun i rest r hd hb => ?_⟩
  · exact ⟨_, acceptWord_clean (s := s.setInbox acts) hd hb hapart, rfl,
      State.executing_setPort_same (s := s.setInbox acts) ht hd⟩
  · exact acceptWord_breach (s := s.setInbox acts) hd hb

/-! ### A step that lets a context move (20 R30) -/

section
variable {s : State} {t : Nat} {i : Instr}

/-- With no action pending the lowest context that executes a command moves. -/
theorem step_idle (hf : s.faulted = none) (hin : s.inbox = []) (hx : s.executing t = some i)
    (hlow : ∀ u, u < t → s.executing u = none) : step s = runContext t s := by
  have hfirst : s.firstExecuting = some t := by
    refine List.find?_range_eq_some.mpr ⟨by simp [hx], List.mem_range.mpr (executing_lt hx), fun u hu => ?_⟩
    simp [hlow u hu]
  simp [step, hf, liveStep, hin, idleStep, hfirst]

/-- A port that executes a command takes no word: its context moves first (30 R35). -/
theorem step_writePort_of_executing {w : Word} {acts : List HostAction} (hf : s.faulted = none)
    (hin : s.inbox = .writePort t w :: acts) (hx : s.executing t = some i) : step s = runContext t s := by
  simp [step, hf, liveStep, hin, hostStep, portWrite, Nat.not_le.mpr (executing_lt hx), hx]

end

/-- Settles O5: in each of the three cases the step is `runContext`, which runs what the port decodes to. -/
theorem stepRunsTheDecodedCommand : Obligations.StepRunsTheDecodedCommand := by
  intro s t acts w i rest hf ht hd
  have hx : s.executing t = some i := executing_eq_some_iff.mpr ⟨rest, hd⟩
  refine ⟨fun hin => ?_, fun hin hlow => ?_, fun hin => ?_⟩
  · rw [step_advance hf ht hin]
    exact runContext_executing (s := s.setInbox acts) hx
  · rw [step_idle hf hin hx hlow, runContext_executing hx]
  · rw [step_writePort_of_executing hf hin hx, runContext_executing hx]

end Sys2Proof.Machine
end

section
/-! SUPPORT. `f2p` sample by sample (40 R53 to R62): what the clamp and the rounding give at the bounds, away from ties
and at ties, and that the whole function is bounded and monotonic. -/

namespace Sys2Proof.Machine

/-! ### Clamp and round (40 R56, R57, R58) -/

/-- A scaled value in range is rounded and not clamped. -/
theorem clampRound_in_range (tie : Tie) {q : Rat} (h1 : -32768 ≤ q) (h2 : q ≤ 32767) :
    clampRound tie q = roundBy tie q := by
  rw [clampRound_eq, if_neg (not_lt.mpr h2), if_neg (not_lt.mpr h1)]

theorem roundBy_intCast (tie : Tie) (n : Int) : roundBy tie (n : Rat) = n :=
  (near_unique (q := (n : Rat)) (by norm_num) (roundBy_near tie _)).symm

/-- The upper bound gives itself, and all above it the bound (40 R56). -/
theorem clampRound_high (tie : Tie) {q : Rat} (h : 32767 ≤ q) : clampRound tie q = 32767 := by
  obtain rfl | hlt := h.eq_or_lt
  · rw [clampRound_in_range tie (by norm_num) le_rfl]
    exact_mod_cast roundBy_intCast tie 32767
  · rw [clampRound_eq, if_pos hlt]

/-- The lower bound gives itself, and all below it the bound (40 R56). -/
theorem clampRound_low (tie : Tie) {q : Rat} (h : q ≤ -32768) : clampRound tie q = -32768 := by
  obtain rfl | hlt := h.eq_or_lt
  · rw [clampRound_in_range tie le_rfl (by norm_num)]
    exact_mod_cast roundBy_intCast tie (-32768)
  · rw [clampRound_eq, if_neg (by linarith), if_pos hlt]

/-- Away from ties the tie policy is not asked (40 R57). -/
theorem roundBy_off_ties (tie : Tie) {q : Rat} (ht : ∀ n : Int, q ≠ n + 1 / 2) : roundBy tie q = rhaz q :=
  near_unique (near_strict ht (roundBy_near tie q)) (rhaz_near q)

/-- At a tie the policy `AWAY` gives the neighbour farther from zero (40 R58). -/
theorem roundBy_away_tie (n : Int) : roundBy .away ((n : Rat) + 1 / 2) = if 0 ≤ n then n + 1 else n := by
  simpa [roundBy] using rhaz_tie n

/-- At a tie the policy `EVEN` gives the even neighbour (40 R58). -/
theorem roundBy_even_tie (n : Int) : roundBy .even ((n : Rat) + 1 / 2) = if n % 2 = 0 then n else n + 1 := by
  have htie : isTie ((n : Rat) + 1 / 2) = true := (isTie_iff _).mpr ⟨n, rfl⟩
  rw [roundBy, if_pos ⟨htie, rfl⟩, rne_tie]

/-! ### The tie policy in force (00 R7, 43 R76) -/

theorem effTie_eq_away {cfg : Cfg} (h : cfg.variant = .reference ∨ cfg.tie = .away) : effTie cfg = .away := by
  cases hv : cfg.variant with
  | reference => simp [effTie, hv]
  | vectorized => simpa [effTie, hv] using h

theorem effTie_of_vectorized {cfg : Cfg} (h : cfg.variant = .vectorized) : effTie cfg = cfg.tie := by
  simp [effTie, h]

/-! ### The function on finite samples -/

/-- Settles O25: `f2p` gives the constants of `CFG`, and of a finite sample the clamp of its scaled value. -/
theorem specialValuesAndClamp : Obligations.SpecialValuesAndClamp := by
  intro cfg dn w
  refine ⟨f2p_nan cfg dn, ?_, ?_, fun hfin h => ?_, fun hfin h => ?_⟩
  · rintro rfl
    exact f2p_posInf cfg dn
  · rintro rfl
    exact f2p_negInf cfg dn
  · rw [f2p_finite_val cfg dn hfin, clampRound_high _ h]
  · rw [f2p_finite_val cfg dn hfin, clampRound_low _ h]

/-- A finite sample whose scaled value is in range gives its rounding by the tie policy in force. -/
theorem f2p_in_range {w : Word} (cfg : Cfg) (dn : Word) (hfin : isFinite w = true) (h1 : -32768 ≤ val w * 32768)
    (h2 : val w * 32768 ≤ 32767) : f2p cfg dn w = roundBy (effTie cfg) (val w * 32768) := by
  rw [f2p_finite_val cfg dn hfin, clampRound_in_range _ h1 h2]

/-- Settles O27: away from ties both roundings are `rhaz`, which is then nearer than one half. -/
theorem roundsToNearestAwayFromTies : Obligations.RoundsToNearestAwayFromTies := by
  intro cfg dn w hfin h1 h2 ht
  have hrhaz : f2p cfg dn w = rhaz (val w * 32768) := by
    rw [f2p_in_range cfg dn hfin h1 h2, roundBy_off_ties _ ht]
  obtain ⟨habove, hbelow⟩ := near_strict ht (rhaz_near (val w * 32768))
  rw [hrhaz]
  exact ⟨habove, hbelow, rfl, (rne_eq_rhaz ht).symm⟩

/-- Settles O28: in range `f2p` is the rounding by the tie policy in force, which is known at a tie. -/
theorem tiesFollowThePolicy : Obligations.TiesFollowThePolicy := by
  intro cfg dn w n hfin hn h1 h2
  rw [f2p_in_range cfg dn hfin h1 h2, hn]
  refine ⟨fun haway => ?_, fun hvec heven => ?_⟩
  · rw [effTie_eq_away haway, roundBy_away_tie]
  · rw [effTie_of_vectorized hvec, heven, roundBy_even_tie]

/-- A finite sample whose scaled value is nearer than one half to 0 gives 0 (40 R60). -/
theorem f2p_small {w : Word} (cfg : Cfg) (dn : Word) (hfin : isFinite w = true) (h1 : -(1 / 65536) < val w)
    (h2 : val w < 1 / 65536) : f2p cfg dn w = 0 := by
  rw [f2p_finite_val cfg dn hfin]
  exact clampRound_small _ (by linarith) (by linarith)

/-- Settles O29: subnormals and zeros are below `2^-16` too. -/
theorem tinySamplesGiveZero : Obligations.TinySamplesGiveZero := by
  refine fun cfg dn w hfin => ⟨fun hb => ?_, f2p_small cfg dn hfin⟩
  obtain ⟨h1, h2⟩ := val_small hb
  exact f2p_small cfg dn hfin h1 h2

/-! ### The function on all patterns (40 R62) -/

/-- Every pattern has a result in the int16 range: NaNs and infinities because the constants of `CFG` are int16. -/
theorem f2p_bounds (cfg : Cfg) (dn w : Word) : -32768 ≤ f2p cfg dn w ∧ f2p cfg dn w ≤ 32767 := by
  unfold f2p
  split
  · exact sint16_bounds _
  · split
    · split
      · exact sint16_bounds _
      · exact sint16_bounds _
    · exact clampRound_bounds _ _

theorem f2p_mono {w v : Word} (cfg : Cfg) (dn : Word) (hw : isFinite w = true) (hv : isFinite v = true)
    (h : val w ≤ val v) : f2p cfg dn w ≤ f2p cfg dn v := by
  rw [f2p_finite_val cfg dn hw, f2p_finite_val cfg dn hv]
  exact clampRound_mono _ (by linarith)

/-- Settles O30: every branch of `f2p` is in range, and on finite samples it is the monotonic `clampRound`. -/
theorem f2pIsBoundedAndMonotonic : Obligations.F2pIsBoundedAndMonotonic :=
  fun cfg dn w _ => ⟨f2p_bounds cfg dn w, f2p_mono cfg dn⟩

end Sys2Proof.Machine
end

section
/-! SUPPORT. The command `ILV` (40 R48, R49, R52): the first check that fails, what a ready command stores, and what it
leaves alone. -/

namespace Sys2Proof.Machine

open Sys2Proof.Safety

/-! ### The checks (40 R49, 60 R90) -/

/-- `commonBreach_cases`, read from the check that fails: the first one is the reason, for both converters. -/
theorem commonBreach_first_failing (x : Transfer) (alloc : List Span) :
    (¬CountsPositive x → commonBreach x alloc = some .zeroCount) ∧
    (CountsPositive x → ¬NoNull x → commonBreach x alloc = some .nullBuffer) ∧
    (CountsPositive x → NoNull x → ¬Aligned x → commonBreach x alloc = some .misaligned) ∧
    (CountsPositive x → NoNull x → Aligned x → ¬BuffersOwned x alloc → commonBreach x alloc = some .capacity) := by
  obtain ⟨h, e⟩ | ⟨h1, h, e⟩ | ⟨h1, h2, h, e⟩ | ⟨h1, h2, h3, h, e⟩ | ⟨⟨h1, h2, h3, h4⟩, -⟩ := commonBreach_cases x alloc
  · simp [h, e]
  · simp [h1, h, e]
  · simp [h1, h2, h, e]
  · simp [h1, h2, h3, h, e]
  · simp [h1, h2, h3, h4]

/-- A breach of the common checks is the breach of `ILV`. -/
theorem ilvBreach_of_common {x : Transfer} {alloc : List Span} {r : FaultReason}
    (h : commonBreach x alloc = some r) : ilvBreach x alloc = some r := by
  simp [ilvBreach, h]

/-- Where only the output meets a plane, the breach of `ILV` is the overlap. -/
theorem ilvBreach_overlap {x : Transfer} {alloc : List Span} (hb : BasicContract x alloc) (ho : ¬OutputApart x) :
    ilvBreach x alloc = some .overlap := by
  have hcommon : commonBreach x alloc = none := (commonBreach_none_iff x alloc).mpr hb
  have hmeet : (planeSpans x).any (pcmSpan x).meets = true := by
    rwa [← outputApart_iff, Bool.not_eq_false] at ho
  simp [ilvBreach, hcommon, hmeet]

/-- Settles O21: the first check that fails is the breach of `ILV`, which it raises; with none it completes. -/
theorem ilvRaisesTheFirstFailingCheck : Obligations.IlvRaisesTheFirstFailingCheck := by
  intro x s hi
  have raises : ∀ {r}, ilvBreach x s.alloc = some r → exec (.ilv x) s = .next (s.setFaulted r) :=
    exec_raise (i := .ilv x) hi.live hi.wf
  obtain ⟨hcount, hnull, halign, hcap⟩ := commonBreach_first_failing x s.alloc
  refine ⟨fun h => ?_, fun h1 h => ?_, fun h1 h2 h => ?_, fun h1 h2 h3 h => ?_, fun hb h => ?_, fun hb ho => ?_⟩
  · exact raises (ilvBreach_of_common (hcount h))
  · exact raises (ilvBreach_of_common (hnull h1 h))
  · exact raises (ilvBreach_of_common (halign h1 h2 h))
  · exact raises (ilvBreach_of_common (hcap h1 h2 h3 h))
  · exact raises (ilvBreach_overlap hb h)
  · exact ⟨_, exec_ilv_of_ready ⟨hi, hb, ho⟩, by simpa using hi.live⟩

/-! ### The effect (40 R52) -/

/-- After the loop of `ILV` each output sample is the conversion of its input sample before it. -/
theorem ilvLoop_output {x : Transfer} {f c : Nat} (cfg : Cfg) (dn : Word) (m : Memory) (hw : x.wf = true)
    (ho : OutputApart x) (hf : f < frameCount x) (hc : c < chCount x) :
    memRead (ilvLoop cfg dn x (elements x) m) (pcmAddr x f c) 2 =
      (enc16 (f2p cfg dn (BitVec.ofNat 32 (memRead m (planeAddr x c f) 4)))).toNat := by
  have hread := storeLoop_memRead (ilv_undisturbed cfg dn hw ho) (ilv_storesApart x) (elements_nodup x) m
    (e := (f, c)) (mem_elements.mpr ⟨hf, hc⟩)
  exact hread.trans (Nat.mod_eq_of_lt (BitVec.isLt _))

/-- The loop of `ILV` leaves its input samples alone. -/
theorem ilvLoop_input {x : Transfer} {f c : Nat} (cfg : Cfg) (dn : Word) (m : Memory) (hw : x.wf = true)
    (ho : OutputApart x) (hf : f < frameCount x) (hc : c < chCount x) :
    memRead (ilvLoop cfg dn x (elements x) m) (planeAddr x c f) 4 = memRead m (planeAddr x c f) 4 :=
  memRead_congr fun _ h1 h2 => storeLoop_read_other _ m (ilv_input_not_stored hw ho hc hf h1 h2)

/-- The loop of `ILV` leaves every byte outside the PCM buffer alone. -/
theorem ilvLoop_read_other {x : Transfer} {a : Nat} (cfg : Cfg) (dn : Word) (m : Memory)
    (h : a < x.pcm.toNat ∨ x.pcm.toNat + 2 * (chCount x * frameCount x) ≤ a) :
    (ilvLoop cfg dn x (elements x) m).read a = m.read a := by
  refine storeLoop_read_other _ m fun hs => ?_
  have := ilv_storedBy hs
  omega

/-- Settles O22: a ready `ILV` is its loop and completion, and the laws of the loop say what each byte holds. -/
theorem ilvConvertsEverySample : Obligations.IlvConvertsEverySample := by
  intro x s h
  have hw := h.issued.wf
  refine ⟨_, exec_ilv_of_ready h, by simpa using h.issued.live, fun f c hf hc => ?_, fun a ha => ?_,
    fun c f hc hf => ?_, rfl, ?_, ?_⟩
  · exact ilvLoop_output _ _ s.mem hw h.apart hf hc
  · rw [Nat.mul_assoc] at ha
    exact ilvLoop_read_other _ _ s.mem ha
  · exact ilvLoop_input _ _ s.mem hw h.apart hf hc
  · exact State.portWords_complete_same (s.setMem _)
  · exact State.completedOf_complete_same (s.setMem _) h.issued.ctx

/-! ### The frame (40 R48, 20 R28, 60 R87) -/

/-- Settles O23: a next state of `ILV` is that of a fault, which changes the mark alone, or that of its completed
effect, which changes the PCM buffer and the current context. -/
theorem ilvFrame : Obligations.IlvFrame := by
  intro x s s' h
  obtain ⟨hlive, -, ⟨r, -, rfl⟩ | ⟨-, rfl⟩⟩ := exec_next h
  · simp
  · have hother : ∀ u, u ≠ s.cur → (effect (.ilv x) s).complete.portWords u = s.portWords u ∧
        (effect (.ilv x) s).complete.completedOf u = s.completedOf u := fun u hu => by
      simp [State.portWords_complete_other, State.completedOf_complete_other, hu]
    refine ⟨by simp, by simp, rfl, by simp, by simp, by simp, hother, fun a ha => ?_, by simp [hlive]⟩
    exact ilvLoop_read_other _ _ s.mem (by simpa [pcmAddr] using ha)

end Sys2Proof.Machine
end

section
/-! SUPPORT. The command `DILV` (41 R63, R64, R66): the first check that fails, what a ready command stores, and what it
leaves alone. -/

namespace Sys2Proof.Machine

open Sys2Proof.Safety

/-! ### The checks (41 R64, 60 R90) -/

/-- A breach of the common checks is the breach of `DILV`. -/
theorem dilvBreach_of_common {x : Transfer} {alloc : List Span} {r : FaultReason}
    (h : commonBreach x alloc = some r) : dilvBreach x alloc = some r := by
  simp [dilvBreach, h]

/-- Where only an output plane meets the input or another plane, the breach of `DILV` is the overlap. -/
theorem dilvBreach_overlap {x : Transfer} {alloc : List Span} (hb : BasicContract x alloc)
    (ho : ¬(OutputApart x ∧ PlanesApart x)) : dilvBreach x alloc = some .overlap := by
  have hcommon : commonBreach x alloc = none := (commonBreach_none_iff x alloc).mpr hb
  have hmeet : (planeSpans x).any (pcmSpan x).meets = true ∨ pairwiseApart (planeSpans x) = false := by
    rwa [← outputApart_iff, ← planesApart_iff, not_and_or, Bool.not_eq_false, Bool.not_eq_true] at ho
  simp only [dilvBreach, hcommon, if_pos hmeet]

/-- Settles O33: the first check that fails is the breach of `DILV`, which it raises; with none it completes. -/
theorem dilvRaisesTheFirstFailingCheck : Obligations.DilvRaisesTheFirstFailingCheck := by
  intro x s hi
  have raises : ∀ {r}, dilvBreach x s.alloc = some r → exec (.dilv x) s = .next (s.setFaulted r) :=
    exec_raise (i := .dilv x) hi.live hi.wf
  obtain ⟨hcount, hnull, halign, hcap⟩ := commonBreach_first_failing x s.alloc
  refine ⟨fun h => ?_, fun h1 h => ?_, fun h1 h2 h => ?_, fun h1 h2 h3 h => ?_, fun hb h => ?_, fun hb ho hp => ?_⟩
  · exact raises (dilvBreach_of_common (hcount h))
  · exact raises (dilvBreach_of_common (hnull h1 h))
  · exact raises (dilvBreach_of_common (halign h1 h2 h))
  · exact raises (dilvBreach_of_common (hcap h1 h2 h3 h))
  · exact raises (dilvBreach_overlap hb h)
  · exact ⟨_, exec_dilv_of_ready ⟨hi, hb, ho, hp⟩, by simpa using hi.live⟩

/-! ### The effect (41 R66) -/

/-- After the loop of `DILV` each output sample is the conversion of its input sample before it. -/
theorem dilvLoop_output {x : Transfer} {f c : Nat} (m : Memory) (hw : x.wf = true) (ho : OutputApart x)
    (hp : PlanesApart x) (hf : f < frameCount x) (hc : c < chCount x) :
    memRead (dilvLoop x (elements x) m) (planeAddr x c f) 4 =
      (p2f (BitVec.ofNat 16 (memRead m (pcmAddr x f c) 2))).toNat := by
  have hread := storeLoop_memRead (dilv_undisturbed hw ho) (dilv_storesApart hw hp) (elements_nodup x) m
    (e := (f, c)) (mem_elements.mpr ⟨hf, hc⟩)
  exact hread.trans (Nat.mod_eq_of_lt (BitVec.isLt _))

/-- The loop of `DILV` leaves its input samples alone. -/
theorem dilvLoop_input {x : Transfer} {f c : Nat} (m : Memory) (hw : x.wf = true) (ho : OutputApart x)
    (hf : f < frameCount x) (hc : c < chCount x) :
    memRead (dilvLoop x (elements x) m) (pcmAddr x f c) 2 = memRead m (pcmAddr x f c) 2 :=
  memRead_congr fun _ h1 h2 => storeLoop_read_other _ m (dilv_input_not_stored hw ho hc hf h1 h2)

/-- The loop of `DILV` leaves every byte outside the first `F` elements of the planes alone. -/
theorem dilvLoop_read_other {x : Transfer} {a : Nat} (m : Memory)
    (h : ∀ c, c < chCount x → a < planeAddr x c 0 ∨ planeAddr x c 0 + 4 * frameCount x ≤ a) :
    (dilvLoop x (elements x) m).read a = m.read a := by
  refine storeLoop_read_other _ m fun hs => ?_
  obtain ⟨c, hc, hge, hlt⟩ := dilv_storedBy hs
  have hout := h c hc
  simp only [planeAddr] at hout
  omega

/-- Settles O34: a ready `DILV` is its loop and completion, and the laws of the loop say what each byte holds. -/
theorem dilvConvertsEverySample : Obligations.DilvConvertsEverySample := by
  intro x s h
  have hw := h.issued.wf
  refine ⟨_, exec_dilv_of_ready h, by simpa using h.issued.live, fun f c hf hc => ?_, fun a ha => ?_,
    fun f c hf hc => ?_, rfl, ?_, ?_⟩
  · exact dilvLoop_output s.mem hw h.apart h.planes hf hc
  · exact dilvLoop_read_other s.mem fun c hc => ha _ (plane_mem hw hc)
  · exact dilvLoop_input s.mem hw h.apart hf hc
  · exact State.portWords_complete_same (s.setMem _)
  · exact State.completedOf_complete_same (s.setMem _) h.issued.ctx

/-! ### The frame (41 R63, 20 R28, 60 R87) -/

section
variable {i : Instr} {s s' : State}

/-- What a command that answers a next state leaves alone, memory and `DNCTL` aside. -/
theorem exec_frame (h : exec i s = .next s') :
    s'.cfg = s.cfg ∧ s'.alloc = s.alloc ∧ s'.inbox = s.inbox ∧ s'.cur = s.cur ∧ s'.fresh = s.fresh ∧
      ∀ u, u ≠ s.cur → s'.portWords u = s.portWords u ∧ s'.completedOf u = s.completedOf u := by
  obtain ⟨-, -, ⟨r, -, rfl⟩ | ⟨-, rfl⟩⟩ := exec_next h
  · simp
  · have hother : ∀ u, u ≠ s.cur → (effect i s).complete.portWords u = s.portWords u ∧
        (effect i s).complete.completedOf u = s.completedOf u := fun u hu => by
      simp [State.portWords_complete_other, State.completedOf_complete_other, hu]
    exact ⟨by simp, by simp, by simp, by simp, by simp, hother⟩

/-- A transfer leaves `DNCTL` alone (42 R72: only `DNEN` writes it). -/
theorem exec_dnctl_of_ne_dnen (hi : i ≠ .dnen) (h : exec i s = .next s') : s'.dnctl = s.dnctl := by
  obtain ⟨-, -, ⟨r, -, rfl⟩ | ⟨-, rfl⟩⟩ := exec_next h
  · simp
  · simp [effect_dnctl_of_ne_dnen s hi]

/-- A command that raised a fault has set the mark alone (60 R87). -/
theorem exec_raised (h : exec i s = .next s') (hf : s'.faulted ≠ none) : ∃ r, s' = s.setFaulted r := by
  obtain ⟨hlive, -, ⟨r, -, rfl⟩ | ⟨-, rfl⟩⟩ := exec_next h
  · exact ⟨r, rfl⟩
  · exact absurd hlive (by simpa using hf)

end

/-- A byte outside the first `F` elements of the planes is as before `DILV`. -/
theorem exec_dilv_read_other {x : Transfer} {s s' : State} {a : Nat} (h : exec (.dilv x) s = .next s')
    (ha : ∀ c, c < chCount x → a < planeAddr x c 0 ∨ planeAddr x c 0 + 4 * frameCount x ≤ a) :
    s'.mem.read a = s.mem.read a := by
  obtain ⟨-, -, ⟨r, -, rfl⟩ | ⟨-, rfl⟩⟩ := exec_next h
  · rfl
  · exact dilvLoop_read_other s.mem ha

/-- Settles O35: the frame of every command, the bytes that the loop of `DILV` leaves alone, and that a fault sets the
mark alone. -/
theorem dilvFrame : Obligations.DilvFrame := by
  intro x s s' h
  obtain ⟨hcfg, halloc, hinbox, hcur, hfresh, hother⟩ := exec_frame h
  refine ⟨hcfg, halloc, exec_dnctl_of_ne_dnen (by simp) h, hinbox, hcur, hfresh, hother,
    fun a ha => exec_dilv_read_other h ha, fun hf => ?_⟩
  obtain ⟨r, rfl⟩ := exec_raised h hf
  simp

end Sys2Proof.Machine
end

section
/-! SUPPORT. The function `p2f` (41 R65 to R69): its result as a pattern that `packFloat` builds, and the value of that
pattern. -/

namespace Sys2Proof.Machine

/-! ### The value of a pattern (41 R65) -/

/-- The significand of the pattern is `m`, shifted to 24 bits. -/
theorem packFloat_significand {m e : Nat} (he : e ≤ 15) (h1 : 2 ^ e ≤ m) :
    2 ^ 23 + (m - 2 ^ e) * 2 ^ (23 - e) = m * 2 ^ (23 - e) := by
  have hone : 2 ^ 23 = 2 ^ e * 2 ^ (23 - e) := by rw [← pow_add]; congr 1; omega
  rw [hone, ← Nat.add_mul, Nat.add_sub_cancel' h1]

/-- The value of the pattern is `m / 32768` with its sign. -/
theorem val_packFloat {negative : Bool} {m e : Nat} (he : e ≤ 15) (h1 : 2 ^ e ≤ m) (h2 : m < 2 ^ (e + 1)) :
    val (packFloat negative m e) = (if negative then -1 else 1) * (m : Rat) / 32768 := by
  obtain ⟨hsign, hexp, hfrac⟩ := packFloat_fields (negative := negative) he h2
  have hscale : (2 ^ 23 + frac (packFloat negative m e)) * 2 ^ bexp (packFloat negative m e) = m * 2 ^ 135 := by
    rw [hfrac, hexp, packFloat_significand he h1, Nat.mul_assoc, ← pow_add]
    congr 2; omega
  rw [val, if_neg (by omega), hscale, signFactor, hsign, Rat.mkRat_eq_div]
  cases negative <;> push_cast <;> ring

/-! ### The two cases of the function (41 R65) -/

@[simp] theorem p2f_zero : p2f 0#16 = 0#32 := by decide

theorem toInt_ne_zero {h : Half} (hne : h ≠ 0#16) : h.toInt ≠ 0 := by simpa using BitVec.toInt_ne.mpr hne

/-- Every other sample is packed with the exponent of its magnitude, `0` to `15`. -/
theorem p2f_of_ne_zero {h : Half} (hne : h ≠ 0#16) :
    ∃ e, e ≤ 15 ∧ 2 ^ e ≤ h.toInt.natAbs ∧ h.toInt.natAbs < 2 ^ (e + 1) ∧
      p2f h = packFloat (decide (h.toInt < 0)) h.toInt.natAbs e := by
  have hint := toInt_ne_zero hne
  have hbounds := sint16_bounds h
  have hs := sint16_eq_toInt h
  have habs : h.toInt.natAbs ≠ 0 := by omega
  have hlog : Nat.log2 h.toInt.natAbs < 16 := (Nat.log2_lt habs).mpr (by omega)
  exact ⟨_, by omega, Nat.log2_self_le habs, Nat.lt_log2_self, by rw [p2f, hs, if_neg hint]⟩

/-! ### Exact and increasing (41 R67) -/

/-- The conversion is exact: the value of the result is that of the sample. -/
theorem val_p2f (h : Half) : val (p2f h) = (h.toInt : Rat) / 32768 := by
  by_cases hne : h = 0#16
  · subst hne
    have hzero : val 0#32 = 0 := by decide
    simp [hzero]
  · obtain ⟨e, he, h1, h2, hp⟩ := p2f_of_ne_zero hne
    rw [hp, val_packFloat he h1 h2, Nat.cast_natAbs]
    obtain hneg | hpos := lt_or_ge h.toInt 0
    · simp [hneg, abs_of_neg]
    · simp [not_lt.mpr hpos, abs_of_nonneg hpos]

/-- The exponent field of every other result is 112 to 127, that of a normal number (41 R68). -/
theorem isNormal_p2f {h : Half} (hne : h ≠ 0#16) : isNormal (p2f h) = true := by
  obtain ⟨e, he, -, h2, hp⟩ := p2f_of_ne_zero hne
  obtain ⟨-, hexp, -⟩ := packFloat_fields (negative := decide (h.toInt < 0)) he h2
  simp only [isNormal, hp, hexp, Bool.and_eq_true, decide_eq_true_eq]
  omega

theorem isFinite_of_isNormal {w : Word} (h : isNormal w = true) : isFinite w = true := by
  simp only [isNormal, Bool.and_eq_true, decide_eq_true_eq] at h
  simp only [isFinite, bne_iff_ne]
  omega

theorem isFinite_p2f (h : Half) : isFinite (p2f h) = true := by
  by_cases hne : h = 0#16
  · subst hne
    decide
  · exact isFinite_of_isNormal (isNormal_p2f hne)

/-- Settles O37: `val_p2f` is the exactness, and a larger sample divided by 32768 is larger. -/
theorem p2fIsExactAndIncreasing : Obligations.P2fIsExactAndIncreasing := by
  refine fun h k => ⟨isFinite_p2f h, val_p2f h, fun hlt => ?_⟩
  have hcast : (h.toInt : Rat) < k.toInt := by exact_mod_cast hlt
  rw [val_p2f, val_p2f]
  linarith

/-! ### Zero or normal (41 R68, R69) -/

/-- Only the sample 0 gives the pattern of +0. -/
theorem p2f_eq_zero_iff (h : Half) : p2f h = 0#32 ↔ h = 0#16 := by
  constructor
  · intro hz
    by_contra hne
    have hnormal := isNormal_p2f hne
    rw [hz] at hnormal
    exact absurd hnormal (by decide)
  · rintro rfl
    exact p2f_zero

/-- The fraction is shifted left by `23 - e`, which is at least 8 (41 R69). -/
theorem frac_p2f_mod (h : Half) : frac (p2f h) % 256 = 0 := by
  by_cases hne : h = 0#16
  · subst hne
    decide
  · obtain ⟨e, he, -, h2, hp⟩ := p2f_of_ne_zero hne
    obtain ⟨-, -, hfrac⟩ := packFloat_fields (negative := decide (h.toInt < 0)) he h2
    have hdvd : 2 ^ 8 ∣ 2 ^ (23 - e) := pow_dvd_pow 2 (by omega)
    rw [hp, hfrac]
    exact Nat.mod_eq_zero_of_dvd (hdvd.mul_left _)

/-- The low 8 bits of a pattern are those of its fraction. -/
theorem extractLsb'_low8_eq_zero {w : Word} (h : frac w % 256 = 0) : w.extractLsb' 0 8 = 0#8 := by
  rw [frac_eq, Nat.mod_mod_of_dvd _ (by decide)] at h
  apply BitVec.eq_of_toNat_eq
  simpa using h

/-- `val_p2f` scales a sample of magnitude 1 to 32768 (41 R68). -/
theorem val_p2f_bounds {h : Half} (hne : h ≠ 0#16) :
    (1 / 32768 ≤ val (p2f h) ∧ val (p2f h) ≤ 1) ∨ (-1 ≤ val (p2f h) ∧ val (p2f h) ≤ -(1 / 32768)) := by
  have hint := toInt_ne_zero hne
  obtain ⟨hlow, hhigh⟩ := sint16_bounds h
  rw [sint16_eq_toInt] at hlow hhigh
  have hlow' : (-32768 : Rat) ≤ h.toInt := by exact_mod_cast hlow
  have hhigh' : (h.toInt : Rat) ≤ 32767 := by exact_mod_cast hhigh
  rw [val_p2f]
  obtain hneg | hpos := lt_or_gt_of_ne hint
  · have hneg' : (h.toInt : Rat) ≤ -1 := by exact_mod_cast (by omega : h.toInt ≤ -1)
    exact .inr ⟨by linarith, by linarith⟩
  · have hpos' : (1 : Rat) ≤ h.toInt := by exact_mod_cast hpos
    exact .inl ⟨by linarith, by linarith⟩

/-- Settles O38: the pattern that `p2f` packs is normal, has its low 8 bits 0, and the value of its sample. -/
theorem p2fGivesZeroOrNormal : Obligations.P2fGivesZeroOrNormal :=
  fun h => ⟨p2f_eq_zero_iff h, extractLsb'_low8_eq_zero (frac_p2f_mod h),
    fun hne => ⟨isNormal_p2f hne, val_p2f_bounds hne⟩⟩

end Sys2Proof.Machine
end

section
/-! SUPPORT. The command `DNEN` (42 R72, R73, R74): the register that the current context names, what every context reads
after the command, and that a second one writes nothing new. -/

namespace Sys2Proof.Machine

open Sys2Proof.Safety

/-! ### Which register a context names (10 R11) -/

theorem dnctlIndex_perContext {cfg : Cfg} (h : cfg.dnScope = .perContext) (t : Nat) : dnctlIndex cfg t = t := by
  simp [dnctlIndex, h]

theorem dnctlIndex_shared {cfg : Cfg} (h : cfg.dnScope = .shared) (t : Nat) : dnctlIndex cfg t = 0 := by
  simp [dnctlIndex, h]

/-- There is a register for the current context. -/
theorem dnctlIndex_cur_lt {s : State} (h : Shape s) : dnctlIndex s.cfg s.cur < s.dnctl.length := by
  rw [h.dnctl, dnctlCount]
  cases hscope : s.cfg.dnScope with
  | perContext => rw [dnctlIndex_perContext hscope]; exact h.cur
  | shared => rw [dnctlIndex_shared hscope]; exact Nat.one_pos

/-! ### The registers after a command -/

section
variable {s : State}

theorem effect_dnen_dnctl_unsupported (h : s.cfg.dnSupported = false) : (effect .dnen s).dnctl = s.dnctl := by
  simp [effect_dnctl, h]

/-- Whoever names the register of the current context reads both modes set. -/
theorem effect_dnen_dnctlOf_same {u : Nat} (hsup : s.cfg.dnSupported = true)
    (hlt : dnctlIndex s.cfg s.cur < s.dnctl.length) (hu : dnctlIndex s.cfg u = dnctlIndex s.cfg s.cur) :
    (effect .dnen s).dnctlOf u = 3#32 := by
  simp [State.dnctlOf, effect_dnctl, hsup, hu, hlt, dnctlHardwired]

/-- No command writes a register other than that of the current context. -/
theorem effect_dnctlOf_other (i : Instr) {u : Nat} (hu : dnctlIndex s.cfg u ≠ dnctlIndex s.cfg s.cur) :
    (effect i s).dnctlOf u = s.dnctlOf u := by
  rw [State.dnctlOf, effect_dnctl, effect_cfg, State.dnctlOf]
  cases i == Instr.dnen && s.cfg.dnSupported with
  | false => rfl
  | true => simp [List.getD, Ne.symm hu]

end

/-- The second of two `DNEN` of one context writes the value that the first has written (42 R74). -/
theorem effect_dnen_dnctl_idem (s : State) :
    (effect .dnen (effect .dnen s).complete).dnctl = (effect .dnen s).dnctl := by
  cases hsup : s.cfg.dnSupported with
  | false => exact effect_dnen_dnctl_unsupported (by simpa using hsup)
  | true => simp [effect_dnctl, hsup]

/-! ### The command -/

/-- `DNEN` has no checks: while `FAULTED` is clear it has its effect and completes (42 R72, R73). -/
theorem exec_dnen {s : State} (hf : s.faulted = none) : exec .dnen s = .next (effect .dnen s).complete :=
  exec_ok hf rfl rfl

/-- Settles O42: a live `DNEN` completes its effect, the laws above say what each context then reads, and the frame of
every command says the rest. -/
theorem dnenSetsBothModes : Obligations.DnenSetsBothModes := by
  intro s hshape hf
  have hlt := dnctlIndex_cur_lt hshape
  have hctx : s.cur < s.contexts.length := hshape.contexts ▸ hshape.cur
  obtain ⟨hcfg, halloc, hinbox, hcur, hfresh, hother⟩ := exec_frame (exec_dnen hf)
  refine ⟨_, exec_dnen hf, fun hsup => ?_, fun hsup hscope u => ?_, fun hscope u hu => ?_,
    effect_dnen_dnctl_unsupported, effect_dnen_mem s, by simpa using hf, hcfg, halloc, hinbox, hcur, hfresh, ?_, ?_,
    hother⟩
  · have hboth : (effect .dnen s).complete.dnctlOf s.cur = 3#32 := effect_dnen_dnctlOf_same hsup hlt rfl
    rw [hboth]
    decide
  · exact effect_dnen_dnctlOf_same hsup hlt (by simp [dnctlIndex_shared hscope])
  · exact effect_dnctlOf_other .dnen (by simpa [dnctlIndex_perContext hscope] using hu)
  · simpa using State.portWords_complete_same (effect .dnen s)
  · simpa using State.completedOf_complete_same (effect .dnen s) (by simpa using hctx)

/-- Settles O43: the first `DNEN` leaves the block live, so the second completes too, and it writes nothing new. -/
theorem dnenIsIdempotent : Obligations.DnenIsIdempotent := by
  intro s s' h
  obtain ⟨hf, -, ⟨r, hr, -⟩ | ⟨-, rfl⟩⟩ := exec_next h
  · simp [breachOf] at hr
  · exact ⟨_, exec_dnen (by simpa using hf), effect_dnen_dnctl_idem s, by simp⟩

end Sys2Proof.Machine
end

section
/-! SUPPORT. The variants and their laws (43_variants_and_laws.md): where two configurations give the same result (R77,
R78), that the denormal mode changes no output (R83), and the round trip of a sample, alone and through memory (R81). -/

namespace Sys2Proof.Machine

open Sys2Proof.Safety

/-! ### Two configurations on one sample (43 R78) -/

/-- Away from ties the clamp and the rounding do not ask for the tie policy. -/
theorem clampRound_off_ties (tie tie' : Tie) {q : Rat} (ht : ∀ n : Int, q ≠ n + 1 / 2) :
    clampRound tie q = clampRound tie' q := by
  rw [clampRound_eq, clampRound_eq, roundBy_off_ties tie ht, roundBy_off_ties tie' ht]

/-- Settles O31: on finite samples a configuration counts by its tie policy alone, which is asked at ties alone. -/
theorem configurationsAgreeOffTies : Obligations.ConfigurationsAgreeOffTies := by
  intro k l dn dn' w hfin ht
  rw [f2p_finite_val k dn hfin, f2p_finite_val l dn' hfin]
  exact clampRound_off_ties _ _ ht

/-! ### A command in two states (43 R77, R83) -/

/-- A change `g` of the state that a command does not see, and that the command leaves as it is, may be made after the
command instead of before it: it neither sets `FAULTED` nor touches `ALLOC`, and commutes with each of the two ways in
which a command ends. -/
theorem exec_next_map {i : Instr} {s s' : State} {g : State → State} (hlive : (g s).faulted = s.faulted)
    (halloc : (g s).alloc = s.alloc) (hraise : ∀ r, (g s).setFaulted r = g (s.setFaulted r))
    (hdone : (effect i (g s)).complete = g (effect i s).complete) (h : exec i s = .next s') :
    exec i (g s) = .next (g s') := by
  obtain ⟨hf, hw, ⟨r, hr, rfl⟩ | ⟨hb, rfl⟩⟩ := exec_next h
  · rw [exec_raise (hlive.trans hf) hw (halloc ▸ hr), hraise]
  · rw [exec_ok (hlive.trans hf) hw (halloc ▸ hb), hdone]

/-- `ILV` stores the same whatever the registers hold (43 R83). -/
theorem effect_ilv_with_dnctl (x : Transfer) (s : State) (d : List Word) :
    effect (.ilv x) { s with dnctl := d } = { effect (.ilv x) s with dnctl := d } :=
  congrArg (fun m => { s with mem := m, dnctl := d }) (ilvLoop_dnctl s.cfg _ (s.dnctlOf s.cur) x (elements x) s.mem)

/-- Settles O32: `ILV` reads the registers without a consequence, and `DILV` does not read them. -/
theorem denormalModeChangesNoOutput : Obligations.DenormalModeChangesNoOutput := by
  refine fun x s d => ⟨fun s' h => ?_, fun s' h => ?_⟩
  · have hdone := congrArg State.complete (effect_ilv_with_dnctl x s d)
    exact exec_next_map (g := fun s => { s with dnctl := d }) rfl rfl (fun _ => rfl) hdone h
  · exact exec_next_map (g := fun s => { s with dnctl := d }) rfl rfl (fun _ => rfl) rfl h

/-- Settles O39: neither the checks nor the loop of `DILV` read the configuration. -/
theorem dilvAgreesUnderEveryConfiguration : Obligations.DilvAgreesUnderEveryConfiguration :=
  fun _ _ _ k h => exec_next_map (g := fun s => { s with cfg := k }) rfl rfl (fun _ => rfl) rfl h

/-! ### The round trip of a sample (43 R81) -/

/-- An integer in the int16 range is neither clamped nor rounded. -/
theorem clampRound_intCast (tie : Tie) {n : Int} (h1 : -32768 ≤ n) (h2 : n ≤ 32767) : clampRound tie n = n := by
  rw [clampRound_in_range tie (by exact_mod_cast h1) (by exact_mod_cast h2), roundBy_intCast]

/-- The result of `p2f` is exact, so its scaled value is the sample. -/
theorem f2p_p2f (cfg : Cfg) (dn : Word) (h : Half) : f2p cfg dn (p2f h) = h.toInt := by
  obtain ⟨hlow, hhigh⟩ := sint16_bounds h
  rw [sint16_eq_toInt] at hlow hhigh
  rw [f2p_finite_val cfg dn (isFinite_p2f h), val_p2f, div_mul_cancel₀ _ (by norm_num)]
  exact clampRound_intCast _ hlow hhigh

/-- The pattern of a sample that went to float and back. -/
theorem enc16_f2p_p2f (cfg : Cfg) (dn : Word) (h : Half) : enc16 (f2p cfg dn (p2f h)) = h := by
  rw [f2p_p2f, enc16, BitVec.ofInt_toInt]

/-- Settles O40: `f2p_p2f` is one direction, and the sample that gives a pattern in the image of `p2f` is what `f2p`
finds again. -/
theorem roundTripOfASample : Obligations.RoundTripOfASample := by
  refine fun cfg dn => ⟨f2p_p2f cfg dn, fun w => ⟨fun hw => ⟨_, hw.symm⟩, ?_⟩⟩
  rintro ⟨h, rfl⟩
  rw [enc16_f2p_p2f]

/-! ### The round trip through memory (43 R81) -/

/-- New contents of memory and the completion of a command leave the next `ILV` ready. -/
theorem ilvReady_setMem_complete {y : Transfer} {s : State} (h : IlvReady y s) (m : Memory) :
    IlvReady y (s.setMem m).complete :=
  ⟨⟨h.issued.wf, h.issued.live, by simpa using h.issued.ctx⟩, h.basic, h.apart⟩

/-- A 16-bit access reads the bits of a sample and no more. -/
theorem ofNat_memRead_toNat (m : Memory) (a : Nat) : (BitVec.ofNat 16 (memRead m a 2)).toNat = memRead m a 2 := by
  rw [BitVec.toNat_ofNat]
  exact Nat.mod_eq_of_lt (memRead_lt m a 2)

/-- After the loops of `DILV` and of `ILV` over the same planes each sample of the output is that of the input. -/
theorem ilvLoop_dilvLoop_copies {x y : Transfer} {s : State} {f c : Nat} (cfg : Cfg) (dn : Word) (m : Memory)
    (hx : DilvReady x s) (hy : IlvReady y s) (hch : y.ch = x.ch) (hframes : y.frames = x.frames)
    (hplanes : y.planes = x.planes) (hf : f < frameCount x) (hc : c < chCount x) :
    memRead (ilvLoop cfg dn y (elements y) (dilvLoop x (elements x) m)) (pcmAddr y f c) 2 =
      memRead m (pcmAddr x f c) 2 := by
  have hfy : f < frameCount y := by rwa [frameCount, hframes]
  have hcy : c < chCount y := by rwa [chCount, hch]
  have haddr : planeAddr y c f = planeAddr x c f := by rw [planeAddr, hplanes, planeAddr]
  rw [ilvLoop_output cfg dn _ hy.issued.wf hy.apart hfy hcy, haddr,
    dilvLoop_output m hx.issued.wf hx.apart hx.planes hf hc, BitVec.ofNat_toNat, BitVec.setWidth_eq, enc16_f2p_p2f,
    ofNat_memRead_toNat]

/-- Settles O41: the first command leaves the second ready, and the loops of the two copy every sample. -/
theorem dilvThenIlvCopiesThePcmBuffer : Obligations.DilvThenIlvCopiesThePcmBuffer := by
  intro x y s hx hy hch hframes hplanes
  refine ⟨_, _, exec_dilv_of_ready hx, exec_ilv_of_ready (ilvReady_setMem_complete hy _), fun f c hf hc => ?_⟩
  exact ilvLoop_dilvLoop_copies _ _ s.mem hx hy hch hframes hplanes hf hc

end Sys2Proof.Machine
end

section
/-! SUPPORT. The faulted block (60_exceptions.md, 10 R17): no command has an effect (R87) and the only way out is a
reset (R94). -/

namespace Sys2Proof.Machine

/-- With `FAULTED` set a step that answers a next state is a reset, for every other kind of step asks for a live
block. -/
theorem step_next_of_faulted {s s' : State} {r : FaultReason} (hf : s.faulted = some r) (h : step s = .next s') :
    ∃ acts, s.inbox = .reset :: acts ∧ s' = (s.setInbox acts).resetBlock := by
  cases step_kind h with
  | reset acts hin hs' => exact ⟨acts, hin, hs'⟩
  | run _ _ live | accept _ _ _ live | load _ _ live | store _ _ _ live | create _ _ live | destroy _ _ live
  | idle live => simp [hf] at live

/-- Settles O8: `exec_faulted` stops every command, and the reset of the block, the one step there is, clears the
mark. -/
theorem faultedBlockRunsNothingUntilReset : Obligations.FaultedBlockRunsNothingUntilReset := by
  refine fun s r hf => ⟨fun i => exec_faulted hf, fun s' h => ?_⟩
  obtain ⟨acts, hin, rfl⟩ := step_next_of_faulted hf h
  exact ⟨State.faulted_resetBlock _, acts, hin⟩

end Sys2Proof.Machine
end

section
/-! SUPPORT. The end of a command in execution (70 R105), the idle block (70 R99), and the buffers that the host creates
and destroys (70 R104). -/

namespace Sys2Proof.Machine

open Sys2Proof.Safety

/-! ### A context that moves, and a block in which none does (70 R99, R105) -/

@[simp] theorem State.portWords_afterRun_same (s : State) (t : Nat) (i : Instr) :
    (s.afterRun t i).portWords t = [] := by
  simpa [State.afterRun] using (effect i (s.setCur t)).portWords_complete_same

theorem State.completedOf_afterRun_same {s : State} {t : Nat} (i : Instr) (h : t < s.contexts.length) :
    (s.afterRun t i).completedOf t = s.completedOf t + 1 := by
  simp [State.completedOf, h]

/-- Settles O15: by the invariant the checks of the command still pass, so the step is its run to completion, and the
frame of a command says the rest. -/
theorem commandInExecutionCompletes : Obligations.CommandInExecutionCompletes := by
  intro s t i acts h hin
  obtain ⟨-, -, -, -, -, hother⟩ := exec_frame h.exec_eq
  refine ⟨_, h.step_eq hin, by simpa using h.live, by simp, ?_, rfl, hother⟩
  exact State.completedOf_afterRun_same i (executing_lt h.command)

theorem State.firstExecuting_eq_none {s : State} (h : ∀ t, s.executing t = none) : s.firstExecuting = none :=
  List.find?_eq_none.mpr fun t _ => by simp [h t]

/-- Settles O10: with no action pending the step looks for a context that executes a command, and finds none. -/
theorem idleBlockDoesNothing : Obligations.IdleBlockDoesNothing := by
  intro s hf hin hidle
  simp [step, hf, liveStep, hin, idleStep, State.firstExecuting_eq_none hidle]

/-! ### Creating and destroying buffers (70 R104) -/

section
variable {s : State} {sp : Span} {acts : List HostAction}

theorem step_create (hf : s.faulted = none) (h : s.inbox = .create sp :: acts) :
    step s = .next ((s.setInbox acts).setAlloc (sp :: s.alloc)) := by
  simp [step, hf, liveStep, h, hostStep, hostCreate]

theorem step_destroy (hf : s.faulted = none) (h : s.inbox = .destroy sp :: acts) :
    step s = hostDestroy sp (s.setInbox acts) := by
  simp [step, hf, liveStep, h, hostStep]

/-- No command in execution has a buffer that meets a span exactly when none has a byte of the span in a buffer. -/
theorem filter_meeting_eq_nil_iff :
    s.allExecuting.filter (fun i => (bufferSpans i).any sp.meets) = [] ↔
      ∀ a, sp.base ≤ a → a < sp.base + sp.len → ¬InBufferOfRunning bufferSpans s a := by
  simp only [List.filter_eq_nil_iff, List.any_eq_true, Span.meets_iff, mem_allExecuting]
  constructor
  · rintro h a h1 h2 ⟨t, i, ht, hi, q, hq, hin⟩
    exact h i ⟨t, ht, hi⟩ ⟨q, hq, a, ⟨h1, h2⟩, hin⟩
  · rintro h i ⟨t, ht, hi⟩ ⟨q, hq, a, ⟨h1, h2⟩, hin⟩
    exact h a h1 h2 ⟨t, i, ht, hi, q, hq, hin⟩

/-- Destroying a buffer with a byte that a command in execution uses is a Race. -/
theorem hostDestroy_race (hmem : sp ∈ s.alloc)
    (h : ∃ a, sp.base ≤ a ∧ a < sp.base + sp.len ∧ InBufferOfRunning bufferSpans s a) :
    hostDestroy sp s =
      raiseRace ((s.allExecuting.filter fun i => (bufferSpans i).any sp.meets).flatMap bufferSpans) s := by
  obtain ⟨a, h1, h2, hrun⟩ := h
  rw [hostDestroy, if_pos (by simpa using hmem)]
  split
  · next hnil => exact absurd hrun (filter_meeting_eq_nil_iff.mp hnil a h1 h2)
  · rfl

/-- Destroying a buffer that no command in execution uses, or a span that is not in `ALLOC`, leaves `ALLOC` without
it. -/
theorem hostDestroy_plain (h : sp ∉ s.alloc ∨
      ∀ a, sp.base ≤ a → a < sp.base + sp.len → ¬InBufferOfRunning bufferSpans s a) :
    hostDestroy sp s = .next (s.setAlloc (s.alloc.filter fun q => q != sp)) := by
  by_cases hmem : sp ∈ s.alloc
  · have hfree := h.resolve_left (not_not_intro hmem)
    rw [hostDestroy, if_pos (by simpa using hmem), filter_meeting_eq_nil_iff.mpr hfree]
  · have hsame : s.alloc.filter (fun q => q != sp) = s.alloc :=
      List.filter_eq_self.mpr fun q hq => bne_iff_ne.mpr fun he => hmem (he ▸ hq)
    rw [hostDestroy, if_neg (by simpa using hmem), hsame]
    rfl

end

/-- Settles O44: the creation is a plain step, and the destruction is a Race exactly when the span, one of `ALLOC`, has a
byte in a buffer of a command in execution. -/
theorem hostCreatesAndDestroysBuffers : Obligations.HostCreatesAndDestroysBuffers := by
  intro s sp acts hf
  refine ⟨fun hin => ?_, fun hin => ⟨fun hmem hrun => ?_, fun hfree => ?_⟩⟩
  · exact ⟨_, step_create hf hin, fun q => List.mem_cons, rfl⟩
  · rw [step_destroy hf hin, hostDestroy_race (s := s.setInbox acts) hmem hrun]
    exact runningRace_next fun j hj => (List.mem_filter.mp hj).1
  · rw [step_destroy hf hin, hostDestroy_plain (s := s.setInbox acts) hfree]
    exact ⟨_, rfl, fun q => by simp, rfl⟩

end Sys2Proof.Machine
end
